-- ==== Sys2Proof/Config.lean ====
section
/-! DEFINITION. The implementation parameters of the block (spec/00_scope.md, table
"Implementation parameters", R6): those the spec leaves open, as the argument `Params` of
everything that depends on them; each parameter's value for this hardware; and the one value
the rules do not fix. The constants of the algorithms stand with the stage that uses them, under
`Machine/`. -/

namespace Sys2Proof.Config

/-- The parameters left open (spec/92_eei_decisions.md, "Named parameters left open"), as the
model takes them: `SAMPLE_FMT` is the raw width `n` of a Sample with the functions a format must
supply, `fgt0` and `MEAN5` (D5, R9, R101); `CNT_W` is `v` (D7); `MAX_CHUNK` is a number (D8).
The other parameters of the table, `ACC_W` to `EVT_W`, "follow from the others and from the
source's frame layout and are not free". -/
structure Params (n v : Nat) where
  /-- `MEAN5(h0, h1, h2, h3, x)` (R101, D6). -/
  mean5 : BitVec n → BitVec n → BitVec n → BitVec n → BitVec n → BitVec n
  /-- `fgt0(y)`: `y` is strictly greater than zero (R9). -/
  fgt0 : BitVec n → Bool
  /-- `MAX_CHUNK` (R30). -/
  maxChunk : Nat

/-- Bits of a Sample: `SAMPLE_FMT` is IEEE 754 binary32 carried as raw bits
(R6, decision D5; log entry 5). -/
abbrev sampleW : Nat := 32

/-- `CNT_W` of this hardware: bits of a run-length register (R6, R23, decision D7; log entry 6). -/
abbrev cntW : Nat := 32

/-- `ACC_W = CNT_W + 1` for `CNT_W = v`: bits of the merge accumulator and of a merged width
(R6, R24, D7). -/
abbrev accW (v : Nat) : Nat := v + 1

/-- `MAX_CHUNK` of this hardware: most PUSH commands between two ENDC (R6, R30, decision D8;
log entry 6). -/
abbrev maxChunk : Nat := 4096

/-- `FRAME_W` (R6, R172). -/
abbrev frameW : Nat := 6

/-- `SEC_W` (R6, R172). -/
abbrev secW : Nat := 7

/-- `MIN_W` (R6, R172). -/
abbrev minW : Nat := 7

/-- `HOUR_W` (R6, R172). -/
abbrev hourW : Nat := 6

/-- `RATE_W`: bits of the frame-rate estimate (R6, R28, decision D11). -/
abbrev rateW : Nat := 6

/-- `CMD_W`: bits of a command word (R6, R71, decision D2). -/
abbrev cmdW : Nat := 34

/-- `EVT_W`: bits of an event word (R6, R76, decision D3). -/
abbrev evtW : Nat := 71

/-- FREE VALUE. Which bit pattern a binary32 operation on these two operands gives when its
result is a NaN: R104 says "NaN" and no more. No body, so nothing can be proved of it.
`Machine.nanResult` makes a NaN of it (log entry 4). -/
opaque freeNaN : BitVec sampleW → BitVec sampleW → BitVec sampleW

end Sys2Proof.Config
end

