-- ==== Sys2Proof/Word.lean ====
section
/-! DEFINITION. The word types of the block (spec/00_scope.md R7, R8). -/

namespace Sys2Proof

/-- A Sample: the 32 raw bits of a binary32 value (R8, R73). -/
abbrev Sample := BitVec Config.sampleW

/-- A run length as a register holds it: unsigned, `CNT_W` bits (R8, R23). -/
abbrev Width := BitVec Config.cntW

/-- A command word (R71). -/
abbrev CmdWord := BitVec Config.cmdW

/-- An event word (R76). -/
abbrev EvtWord := BitVec Config.evtW

end Sys2Proof
end

