-- ==== Sys2Proof/Syntax.lean ====
section
/-! DEFINITION. The commands of the command port, one constructor for each row of
spec/opcode_table.json (spec/30_encoding.md R72). -/

namespace Sys2Proof

/-- A command (R72). Only PUSH has an operand (R73): a Sample, of which every bit pattern is
legal, so its type says all there is to check of a command. -/
inductive Instr where
  /-- NOP (R190). -/
  | nop
  /-- PUSH of the Sample `x` (R191, R192). -/
  | push (x : Sample)
  /-- ENDC (R193). -/
  | endc
  /-- RST (R194). -/
  | rst
deriving DecidableEq, Repr

end Sys2Proof
end

