-- ==== Sys2Proof/WellFormed.lean ====
section
/-! DEFINITION. Which 34-bit words are commands (spec/30_encoding.md R72, R74), from the mask
and match columns of the table "the four commands". Every term of `Instr` is a command (its
one operand may be any Sample, R73), so the check stands on words; the decoder is written
from the field layout of R71 instead, and an obligation states that the two agree. -/

namespace Sys2Proof

/-- A row of the table "the four commands" of R72. -/
structure CmdRow where
  mask : CmdWord
  value : CmdWord
deriving DecidableEq, Repr

/-- `(w AND mask) = match` (R72). -/
def CmdRow.accepts (r : CmdRow) (w : CmdWord) : Bool := (w &&& r.mask) == r.value

/-- The row of NOP. -/
def rowNop : CmdRow := ⟨0x3FFFFFFFF#34, 0x000000000#34⟩

/-- The row of PUSH. -/
def rowPush : CmdRow := ⟨0x300000000#34, 0x100000000#34⟩

/-- The row of ENDC. -/
def rowEndc : CmdRow := ⟨0x3FFFFFFFF#34, 0x200000000#34⟩

/-- The row of RST. -/
def rowRst : CmdRow := ⟨0x3FFFFFFFF#34, 0x300000000#34⟩

/-- The four rows of R72. -/
def cmdRows : List CmdRow := [rowNop, rowPush, rowEndc, rowRst]

/-- The row a command belongs to (R72). -/
def Instr.row : Instr → CmdRow
  | .nop => rowNop
  | .push _ => rowPush
  | .endc => rowEndc
  | .rst => rowRst

/-- A word that matches some row of R72; any other is illegal (R74). -/
def CmdWord.wellFormed (w : CmdWord) : Bool := cmdRows.any (·.accepts w)

end Sys2Proof
end

