-- ==== Sys2Proof/Decode.lean ====
section
/-! DEFINITION. The decoder of command words, total, rejecting by name, and after it the
encoder (spec/30_encoding.md R71 to R74). The block moves no bytes (R52): a command is a
34-bit word. -/

namespace Sys2Proof

/-- The field `op`, bits 33:32 (R71). -/
def opField (w : CmdWord) : BitVec 2 := w.extractLsb' 32 2

/-- The field `payload`, bits 31:0 (R71). -/
def payloadField (w : CmdWord) : BitVec 32 := w.extractLsb' 0 32

/-- Why a word is not a command (R74): the opcode whose payload must be zero, and the payload
it came with. -/
inductive DecodeReject where
  /-- `op = 00` with a payload: illegal, raises ILLEGAL_CMD. Safe: the spec's own fault. -/
  | nopWithPayload (payload : BitVec 32)
  /-- `op = 10` with a payload: illegal, raises ILLEGAL_CMD. Safe: the spec's own fault. -/
  | endcWithPayload (payload : BitVec 32)
  /-- `op = 11` with a payload: illegal, does not reset, raises ILLEGAL_CMD. Safe: the spec's
  own fault. -/
  | rstWithPayload (payload : BitVec 32)
deriving DecidableEq, Repr

/-- The command a word stands for, or why it stands for none (R72 to R74). -/
def decode (w : CmdWord) : Except DecodeReject Instr :=
  let op := opField w
  let payload := payloadField w
  if op = 0b01#2 then .ok (.push payload)
  else if op = 0b00#2 then
    if payload = 0#32 then .ok .nop else .error (.nopWithPayload payload)
  else if op = 0b10#2 then
    if payload = 0#32 then .ok .endc else .error (.endcWithPayload payload)
  else
    if payload = 0#32 then .ok .rst else .error (.rstWithPayload payload)

/-- The word of a command: `op` above, `payload` below (R71, R72). -/
def encode : Instr → CmdWord
  | .nop => 0b00#2 ++ 0#32
  | .push x => 0b01#2 ++ x
  | .endc => 0b10#2 ++ 0#32
  | .rst => 0b11#2 ++ 0#32

/-- The command the decoder reads from a word given as a number, bit 0 its least significant
(spec/opcode_table.json numbers the 34 bits so). Bits from `nbits` up count as zero; a number
with a bit above bit 33 is no word of the 34-bit port (log entry 15). -/
def decodeTableWord (nbits w : Nat) : Option Instr :=
  let v := w % 2 ^ nbits
  if v < 2 ^ Config.cmdW then
    match decode (BitVec.ofNat Config.cmdW v) with
    | .ok i => some i
    | .error _ => none
  else none

end Sys2Proof
end

