-- ==== Sys2Proof/Machine/PulseMerge.lean ====
section
/-! DEFINITION. Stage 4, MERGE (spec/43_pulse_merge.md). Widths are exact integers here (R8);
ENDC narrows the accumulator to its register (R135). -/

namespace Sys2Proof.Machine

/-- "one quarter of the maximum" is compared by cross-multiplication with this factor
(R130, R131, decision D17). -/
def mergeFactor : Nat := 4

/-- The maximum of the run lengths of one chunk (R136); 0 for an empty chunk, where it is not
used (R133). -/
def maxWidth (ws : List Nat) : Nat := ws.foldl max 0

/-- The loop of MERGE for a chunk with maximum `m` (R130): the merged widths and the
accumulator left. Adding comes before comparing, and the whole accumulator is emitted. -/
def mergeLoop (m : Nat) : Nat → List Nat → List Nat × Nat
  | acc, [] => ([], acc)
  | acc, w :: ws =>
    let a := acc + w
    if mergeFactor * a > m then
      let rest := mergeLoop m 0 ws
      (a :: rest.1, rest.2)
    else mergeLoop m a ws

/-- MERGE with carry-in `acc` (R130, R133). -/
def merge (acc : Nat) (ws : List Nat) : List Nat × Nat :=
  match ws with
  | [] => ([], acc)
  | w :: rest => mergeLoop (maxWidth (w :: rest)) acc (w :: rest)

end Sys2Proof.Machine
end

