-- ==== Sys2Proof/Machine/Biphase.lean ====
section
/-! DEFINITION. Stage 5, BIPH (spec/44_biphase.md). -/

namespace Sys2Proof.Machine

/-- "greater than (max - min) / 2" is compared by cross-multiplication with this factor
(R140, R141, decision D17). -/
def biphaseFactor : Nat := 2

/-- The least merged width of a chunk (R140); 0 for an empty chunk, where it is not used
(R143). -/
def minWidth : List Nat → Nat
  | [] => 0
  | w :: ws => ws.foldl min w

/-- The spread `max - min` of a chunk's merged widths (R140), never negative (R141). -/
def spread (ms : List Nat) : Nat := maxWidth ms - minWidth ms

/-- A pulse is long when it exceeds half the spread `d`, strictly (R140, R141). -/
def isLong (d w : Nat) : Bool := decide (biphaseFactor * w > d)

/-- The loop of BIPH for a chunk with spread `d` (R140, R142): the bits and the flag left. -/
def biphLoop (d : Nat) : Bool → List Nat → List Bool × Bool
  | pending, [] => ([], pending)
  | true, _ :: ws =>
    let rest := biphLoop d false ws
    (true :: rest.1, rest.2)
  | false, w :: ws =>
    if isLong d w then
      let rest := biphLoop d false ws
      (false :: rest.1, rest.2)
    else biphLoop d true ws

/-- BIPH with `bp_pending` before (R140, R143). -/
def biph (pending : Bool) (ms : List Nat) : List Bool × Bool :=
  match ms with
  | [] => ([], pending)
  | w :: rest => biphLoop (spread (w :: rest)) pending (w :: rest)

end Sys2Proof.Machine
end

