-- ==== Sys2Proof/Machine/State.lean ====
section
/-! DEFINITION. The state of the block (spec/10_state.md R20), what stands around it (the two
ports and the command index), and the state after reset (R39). -/

namespace Sys2Proof.Machine

/-- A Polarity Symbol, the signed 8-bit +1 or -1 (R8, R110); never 0 (R112). -/
inductive Pol where
  | pos
  | neg
deriving DecidableEq, Repr

/-- The value of `rl_last`: 0 (only from reset until the first PUSH), +1 or -1 (R22). -/
inductive Held where
  | zero
  | pos
  | neg
deriving DecidableEq, Repr

/-- The causes of a fault (R211). -/
inductive FaultCause where
  /-- A word that is none of the four commands (R74, R195). -/
  | illegalCmd
  /-- A PUSH that finds `chunk_n = MAX_CHUNK` (R192). -/
  | chunkOvf
  /-- A PUSH whose symbol the run-length counter cannot count (R123). -/
  | cntOvf
deriving DecidableEq, Repr

/-- `sm_hist[0..3]`, `h0` the oldest (R21), for Samples of `n` raw bits. -/
structure SmHistOf (n : Nat) where
  h0 : BitVec n
  h1 : BitVec n
  h2 : BitVec n
  h3 : BitVec n
deriving DecidableEq, Repr

/-- `sm_hist` of this hardware. -/
abbrev SmHist := SmHistOf Config.sampleW

/-- The state of stage 3: `rl_last` (R22) and `rl_count` (R23), for `CNT_W = v`. -/
structure RunStateOf (v : Nat) where
  last : Held
  count : BitVec v
deriving DecidableEq, Repr

/-- The state of stage 3 of this hardware. -/
abbrev RunState := RunStateOf Config.cntW

/-- The state of stage 6: `fs_buf` (R26; index 0 the oldest bit), `fs_prev` (R27) and
`fs_rate` (R28). -/
structure SyncState where
  buf : List Bool
  prev : BitVec Config.frameW
  rate : Option (BitVec Config.rateW)
deriving DecidableEq, Repr

/-- The eleven state elements of R20, for Samples of `n` raw bits and `CNT_W = v`. -/
structure BlockOf (n v : Nat) where
  /-- `sm_hist`, stage 1 (R21). -/
  sm : SmHistOf n
  /-- `rl_last` and `rl_count`, stage 3 (R22, R23). -/
  rl : RunStateOf v
  /-- `pm_acc`, stage 4, `ACC_W` bits (R24). -/
  pmAcc : BitVec (Config.accW v)
  /-- `bp_pending`, stage 5 (R25). -/
  bpPending : Bool
  /-- `fs_buf`, `fs_prev` and `fs_rate`, stage 6 (R26 to R28). -/
  fs : SyncState
  /-- `rlbuf`, in order of emission (R29). -/
  rlbuf : List (BitVec v)
  /-- `chunk_n` (R30). -/
  chunkN : Nat
  /-- `fault`: 0 none, 1 ILLEGAL_CMD, 2 CHUNK_OVF, 3 CNT_OVF (R31, R211). -/
  fault : BitVec 2
deriving DecidableEq, Repr

/-- The state elements of this hardware. -/
abbrev Block := BlockOf Config.sampleW Config.cntW

/-- The LTC Frame record (R170). `ubf` holds flag `k` at bit `k - 1`, `user` holds `U[j]` of
R81 at bit `j`: the sequences of R81, first arrived in bit 0. -/
structure Frame where
  frame : BitVec Config.frameW
  second : BitVec Config.secW
  minute : BitVec Config.minW
  hour : BitVec Config.hourW
  dropFrame : Bool
  colorFrame : Bool
  clock : Bool
  ubf : BitVec 3
  user : BitVec 32
deriving DecidableEq, Repr

/-- The event `Frame(F, r)` (R156): a record and the estimate it was reported with. -/
structure Event where
  frame : Frame
  rate : Option (BitVec Config.rateW)
deriving DecidableEq, Repr

/-- What the host can do to the block: present a command word (R70), or pull `rst_n` low and
let it go again (R78, R240), between two commands or during one (log entry 9). -/
inductive PortInput where
  /-- The word `w` on the command port. -/
  | command (w : CmdWord)
  /-- The reset pin, between two commands. -/
  | resetPin
  /-- The word `w`, and the reset pin before its command has completed, when `presented` of
  its events had been presented (R240). -/
  | resetDuring (w : CmdWord) (presented : Nat)
deriving DecidableEq, Repr

/-- The block, the host inputs still to come, the index of the next command (R33), and the
events emitted so far, oldest first (R75). -/
structure State where
  blk : Block
  port : List PortInput
  cmdIndex : Nat
  events : List Event
deriving DecidableEq, Repr

/-- Reasons for which the model stops with a fault: none. The block's three faults are next
states (R214, `FaultCause`), and "every command has a next state in every state"
(spec/93_implementation_defined.md). Safe: there is nothing to raise. -/
inductive Fault where
deriving DecidableEq, Repr

/-- Reasons for which the model refuses a command. -/
inductive Refusal where
  /-- Raised by an arm of `exec` whose command has no meaning yet; no arm is left that does.
  Safe: nothing is claimed of such a command. -/
  | notModelled (mnemonic : String)
deriving DecidableEq, Repr

/-- The block after a reset of either kind (R39, R240, R241). The Sample with no bit set is the
zero of R21. -/
def BlockOf.reset {n v : Nat} : BlockOf n v where
  sm := ⟨0, 0, 0, 0⟩
  rl := ⟨.zero, 0⟩
  pmAcc := 0
  bpPending := false
  fs := ⟨[], 0, none⟩
  rlbuf := []
  chunkN := 0
  fault := 0

/-- The block of this hardware after a reset. -/
abbrev Block.reset : Block := BlockOf.reset

/-- The machine right after reset, with nothing presented on the port yet
(R39; log entries 2 and 3 for the three fields around the block). -/
def State.reset : State where
  blk := Block.reset
  port := []
  cmdIndex := 0
  events := []

end Sys2Proof.Machine
end

