-- ==== Sys2Proof/Machine/FrameDecode.lean ====
section
/-! DEFINITION. The 80-bit frame (spec/30_encoding.md R80, R81), its decoding FDEC and the
host-side rendering RENDER (spec/46_frame_decode.md). -/

namespace Sys2Proof.Machine

/-- Length of a frame in bits (R80, R152). -/
def frameLen : Nat := 80

/-- Weight of a tens digit (R171). -/
def tensWeight : Nat := 10

/-- A row of the table "frame layout" (R80). -/
structure LayoutRow where
  name : String
  offset : Nat
  width : Nat
deriving DecidableEq, Repr

/-! ## The rows of the table "frame layout" (R80), in its order -/

def rowFrameUnits : LayoutRow := ⟨"Frame units", 0, 4⟩
def rowUser1 : LayoutRow := ⟨"User bits 1", 4, 4⟩
def rowFrameTens : LayoutRow := ⟨"Frame tens", 8, 2⟩
def rowDropFrame : LayoutRow := ⟨"Drop-frame flag", 10, 1⟩
def rowColorFrame : LayoutRow := ⟨"Color-frame flag", 11, 1⟩
def rowUser2 : LayoutRow := ⟨"User bits 2", 12, 4⟩
def rowSecondUnits : LayoutRow := ⟨"Second units", 16, 4⟩
def rowUser3 : LayoutRow := ⟨"User bits 3", 20, 4⟩
def rowSecondTens : LayoutRow := ⟨"Second tens", 24, 3⟩
def rowFormat1 : LayoutRow := ⟨"User-bit-format flag 1", 27, 1⟩
def rowUser4 : LayoutRow := ⟨"User bits 4", 28, 4⟩
def rowMinuteUnits : LayoutRow := ⟨"Minute units", 32, 4⟩
def rowUser5 : LayoutRow := ⟨"User bits 5", 36, 4⟩
def rowMinuteTens : LayoutRow := ⟨"Minute tens", 40, 3⟩
def rowFormat2 : LayoutRow := ⟨"User-bit-format flag 2", 43, 1⟩
def rowUser6 : LayoutRow := ⟨"User bits 6", 44, 4⟩
def rowHourUnits : LayoutRow := ⟨"Hour units", 48, 4⟩
def rowUser7 : LayoutRow := ⟨"User bits 7", 52, 4⟩
def rowHourTens : LayoutRow := ⟨"Hour tens", 56, 2⟩
def rowClock : LayoutRow := ⟨"Clock flag", 58, 1⟩
def rowFormat3 : LayoutRow := ⟨"User-bit-format flag 3", 59, 1⟩
def rowUser8 : LayoutRow := ⟨"User bits 8", 60, 4⟩
def rowSync : LayoutRow := ⟨"Sync word", 64, 16⟩

/-- The table "frame layout" of R80, row for row. FDEC reads every bit through a row of it. -/
def frameLayout : List LayoutRow :=
  [rowFrameUnits, rowUser1, rowFrameTens, rowDropFrame, rowColorFrame, rowUser2,
   rowSecondUnits, rowUser3, rowSecondTens, rowFormat1, rowUser4, rowMinuteUnits, rowUser5,
   rowMinuteTens, rowFormat2, rowUser6, rowHourUnits, rowUser7, rowHourTens, rowClock,
   rowFormat3, rowUser8, rowSync]

/-- The eight user-bit groups, in field order (R81). -/
def userRows : List LayoutRow :=
  [rowUser1, rowUser2, rowUser3, rowUser4, rowUser5, rowUser6, rowUser7, rowUser8]

/-- The three user-bit-format flags, in order (R81). -/
def formatRows : List LayoutRow := [rowFormat1, rowFormat2, rowFormat3]

/-! ## Reading the layout -/

/-- `B[i]`; a bit past the end reads as 0, which no accepted buffer has (R176; log entry 13). -/
def bitAt (B : List Bool) (i : Nat) : Bool := B.getD i false

/-- `fld(B, o, n) = sum over i in 0..n-1 of B[o+i] * 2^i` (R80). -/
def fld (B : List Bool) (o : Nat) : Nat → Nat
  | 0 => 0
  | n + 1 => fld B o n + (bitAt B (o + n)).toNat * 2 ^ n

/-- The number a row holds (R80). -/
def field (B : List Bool) (r : LayoutRow) : Nat := fld B r.offset r.width

/-- The bits of a row, in order of arrival (R170). -/
def rowBits (B : List Bool) (r : LayoutRow) : List Bool :=
  (List.range r.width).map fun i => bitAt B (r.offset + i)

/-- The packed-decimal reader `pd` (R171), given the row of the units and that of the tens. -/
def pd (B : List Bool) (units tens : LayoutRow) : Nat := field B units + tensWeight * field B tens

/-- The user data `U[0..31]` in the order the bits arrive (R81, R170, R175). -/
def userBits (B : List Bool) : List Bool := userRows.flatMap (rowBits B)

/-- The format indicator (flag 1, flag 2, flag 3) (R81). -/
def formatBits (B : List Bool) : List Bool := formatRows.flatMap (rowBits B)

/-- FDEC (R170). Each number is exact before it is placed in its field, which always holds it
(R172). -/
def fdec (B : List Bool) : Frame where
  frame := BitVec.ofNat Config.frameW (pd B rowFrameUnits rowFrameTens)
  second := BitVec.ofNat Config.secW (pd B rowSecondUnits rowSecondTens)
  minute := BitVec.ofNat Config.minW (pd B rowMinuteUnits rowMinuteTens)
  hour := BitVec.ofNat Config.hourW (pd B rowHourUnits rowHourTens)
  dropFrame := bitAt B rowDropFrame.offset
  colorFrame := bitAt B rowColorFrame.offset
  clock := bitAt B rowClock.offset
  ubf := BitVec.ofNat 3 (fld (formatBits B) 0 3)
  user := BitVec.ofNat 32 (fld (userBits B) 0 32)

/-- A number in decimal, padded on the left with `0` to at least `n` characters (R178). -/
def paddedDecimal (n v : Nat) : List Char := (Nat.toDigits 10 v).leftpad n '0'

/-- RENDER (R178), host-side: the characters of `HH:MM:SS:FFF`. -/
def render (F : Frame) : List Char :=
  paddedDecimal 2 F.hour.toNat ++ ':' :: paddedDecimal 2 F.minute.toNat ++
    ':' :: paddedDecimal 2 F.second.toNat ++ ':' :: paddedDecimal 3 F.frame.toNat

end Sys2Proof.Machine
end

