-- ==== Sys2Proof/Machine/FrameSync.lean ====
section
/-! DEFINITION. Stage 6, SYNC (spec/45_frame_sync.md). -/

namespace Sys2Proof.Machine

/-- The sync word, index 0 the bit that arrives first (R79). -/
def syncWord : List Bool :=
  [false, false, true, true, true, true, true, true,
   true, true, true, true, true, true, false, true]

/-- `len(buf) ≥ 16` and `last16(buf) = SYNC` (R150, R151). -/
def syncMatch (buf : List Bool) : Bool :=
  decide (16 ≤ buf.length) && (buf.drop (buf.length - 16) == syncWord)

/-- `previous-count + 1` adds this (R155). -/
def rateStep : BitVec Config.rateW := 1

/-- The estimate after a valid frame numbered `f` (R155): `fs_prev + 1` at a decrease, else
kept. -/
def rateAfter (f prev : BitVec Config.frameW) (rate : Option (BitVec Config.rateW)) :
    Option (BitVec Config.rateW) :=
  if f < prev then some (prev + rateStep) else rate

/-- SYNC (R150): the new state of the stage and the event, if one is emitted. The check looks
at the buffer before the new bit, which is appended after any clear. -/
def sync (f : SyncState) (bit : Bool) : SyncState × Option Event :=
  if syncMatch f.buf then
    if f.buf.length = frameLen then
      let F := fdec f.buf
      let rate := rateAfter F.frame f.prev f.rate
      (⟨[bit], F.frame, rate⟩, some ⟨F, rate⟩)
    else (⟨[bit], 0, none⟩, none)
  else ({ f with buf := f.buf ++ [bit] }, none)

/-- SYNC for each bit in order, with the events in the order they are emitted (R55, R193). -/
def syncAll (f : SyncState) : List Bool → SyncState × List Event
  | [] => (f, [])
  | bit :: bits =>
    let r := sync f bit
    let rest := syncAll r.1 bits
    (rest.1, r.2.toList ++ rest.2)

end Sys2Proof.Machine
end

