-- ==== Sys2Proof/Machine/Operands.lean ====
section
/-! DEFINITION. The one operand form of the block: the Sample of a PUSH, the 32 payload bits
read as binary32 with no scaling, extension or check (spec/30_encoding.md R73), its fields,
and the one comparison made of a Sample (spec/41_polarity.md R111). -/

namespace Sys2Proof.Machine

/-- Bit 31 (R73). -/
def signBit (x : Sample) : Bool := x.getLsbD 31

/-- Bits 30:23, the biased exponent (R73). -/
def expField (x : Sample) : Nat := x.toNat / 2 ^ 23 % 2 ^ 8

/-- Bits 22:0 (R73). -/
def fracField (x : Sample) : Nat := x.toNat % 2 ^ 23

/-- A NaN: `x[30:23] = 0xFF` and `x[22:0] ≠ 0` (R111). -/
def isNaN (x : Sample) : Bool := expField x == 255 && fracField x != 0

/-- An infinity of either sign (R73, R104). -/
def isInf (x : Sample) : Bool := expField x == 255 && fracField x == 0

/-- A zero of either sign: `x[30:0] = 0` (R111). -/
def isZero (x : Sample) : Bool := expField x == 0 && fracField x == 0

/-- `fgt0`: strictly greater than zero as IEEE 754 compares, in the bit form of R111. -/
def fgt0 (y : Sample) : Bool := !signBit y && !isZero y && !isNaN y

end Sys2Proof.Machine
end

