-- ==== Sys2Proof/Machine/Polarity.lean ====
section
/-! DEFINITION. Stage 2, POLAR (spec/41_polarity.md). -/

namespace Sys2Proof.Machine

/-- POLAR (R110) with the format's comparison: +1 when strictly greater than zero, else -1. -/
def polarBy {n : Nat} (gt0 : BitVec n → Bool) (y : BitVec n) : Pol := if gt0 y then .pos else .neg

/-- POLAR of this hardware, on binary32 (R110, R111). -/
def polar (y : Sample) : Pol := polarBy fgt0 y

end Sys2Proof.Machine
end

