-- ==== Sys2Proof/Machine/Binary32.lean ====
section
/-! DEFINITION. The binary32 operations MEAN5 uses (spec/40_smoothing.md R101): addition and
division, rounded to nearest, ties to even. The method is exact arithmetic first, one
rounding last: every finite binary32 value is a whole number of units of 2^-149. What IEEE 754
says beyond the words of R101, R102 and R104 is PRESUMED (log entry 5). -/

namespace Sys2Proof.Machine

/-- The magnitude of a finite Sample, in units of 2^-149 (R73; gradual underflow, R102). -/
def magnitude (x : Sample) : Nat :=
  if expField x = 0 then fracField x else (2 ^ 23 + fracField x) * 2 ^ (expField x - 1)

/-- The value of a finite Sample, in units of 2^-149. -/
def finiteValue (x : Sample) : Int :=
  if signBit x then -(magnitude x : Int) else (magnitude x : Int)

/-- The bits of +infinity (R104). -/
def infBits : Nat := 255 * 2 ^ 23

/-- The Sample with this sign bit and these 31 low bits. -/
def packSample (sign : Bool) (low : Nat) : Sample :=
  BitVec.ofNat Config.sampleW ((if sign then 2 ^ 31 else 0) + low)

/-- The low 31 bits of the binary32 value nearest to `num / den` units of 2^-149, ties to even,
infinity past the largest finite value (R101). `d` is the unit of the last place kept,
`q` the integer significand; as `q` counts its leading one, `k * 2^23 + q` is the encoding,
subnormals included, and a carry out of the significand raises the exponent by itself. -/
def roundNearest (num den : Nat) : Nat :=
  let k := Nat.log2 (num / den) - 23
  let d := den * 2 ^ k
  let q := num / d
  let r := num % d
  let up := if 2 * r > d ∨ (2 * r = d ∧ q % 2 = 1) then 1 else 0
  min (k * 2 ^ 23 + q + up) infBits

/-- The result of an operation on `a` and `b` that is a NaN: some NaN, which one is free
(R104; log entry 4). -/
def nanResult (a b : Sample) : Sample :=
  if isNaN (Config.freeNaN a b) then Config.freeNaN a b else 0x7FC00000#32

/-- `fadd32` (R101, R104). An exact zero sum is +0, but -0 when both operands are negative. -/
def fadd32 (a b : Sample) : Sample :=
  if isNaN a || isNaN b then nanResult a b
  else if isInf a then
    if isInf b && signBit a != signBit b then nanResult a b else a
  else if isInf b then b
  else
    let s := finiteValue a + finiteValue b
    if s = 0 then packSample (signBit a && signBit b) 0
    else packSample (decide (s < 0)) (roundNearest s.natAbs 1)

/-- `fdiv32` (R101, R104). -/
def fdiv32 (a b : Sample) : Sample :=
  let sign := signBit a != signBit b
  if isNaN a || isNaN b then nanResult a b
  else if isInf a then
    if isInf b then nanResult a b else packSample sign infBits
  else if isInf b then packSample sign 0
  else if isZero b then
    if isZero a then nanResult a b else packSample sign infBits
  else packSample sign (roundNearest (magnitude a * 2 ^ 149) (magnitude b))

end Sys2Proof.Machine
end

