-- ==== Sys2Proof/Machine/Smoothing.lean ====
section
/-! DEFINITION. Stage 1, SMOOTH (spec/40_smoothing.md). -/

namespace Sys2Proof.Machine

/-- The binary32 constant 5.0, the divisor of MEAN5 (R101). -/
def five : Sample := 0x40A00000#32

/-- MEAN5, the default of the parameter, as the pseudocode of R101 has it (decision D6): sum oldest
first, then a true division by 5.0. For the infinities of R104 see log entry 17. -/
def mean5 (h0 h1 h2 h3 x : Sample) : Sample :=
  let t1 := fadd32 h0 h1
  let t2 := fadd32 t1 h2
  let t3 := fadd32 t2 h3
  let t4 := fadd32 t3 x
  fdiv32 t4 five

/-- SMOOTH (R100) with the parameter MEAN5: the mean of the window and the new sample, and the
window shifted by one raw sample. -/
def smooth {n v : Nat} (P : Config.Params n v) (h : SmHistOf n) (x : BitVec n) :
    BitVec n × SmHistOf n :=
  (P.mean5 h.h0 h.h1 h.h2 h.h3 x, ⟨h.h1, h.h2, h.h3, x⟩)

end Sys2Proof.Machine
end

