-- ==== Sys2Proof/Machine/Hardware.lean ====
section
/-! DEFINITION. The values the open parameters take on this hardware (spec/00_scope.md R6,
spec/92_eei_decisions.md D5 to D8). -/

namespace Sys2Proof.Machine

/-- The hardware of this spec: binary32 with the MEAN5 of R101 and the comparison of R111,
`CNT_W` 32 and `MAX_CHUNK` 4096. -/
def hardware : Config.Params Config.sampleW Config.cntW where
  mean5 := mean5
  fgt0 := fgt0
  maxChunk := Config.maxChunk

end Sys2Proof.Machine
end

