-- ==== Sys2Proof/Machine/Flags.lean ====
section
/-! DEFINITION. The flags of the block (spec/10_state.md R34): the `fault` code, the valid bit
of the estimate, and the status outputs that copy them (spec/30_encoding.md R77). -/

namespace Sys2Proof.Machine

/-- The code a fault leaves in the `fault` register (R211). -/
def FaultCause.code : FaultCause → BitVec 2
  | .illegalCmd => 1#2
  | .chunkOvf => 2#2
  | .cntOvf => 3#2

/-- `fault ≠ 0` (R34, R215). -/
def BlockOf.faulted {n v : Nat} (b : BlockOf n v) : Bool := b.fault != 0#2

/-- `fs_rate_valid` of an estimate (R28, decision D11). -/
def rateValid (r : Option (BitVec Config.rateW)) : Bool := r.isSome

/-- `fs_rate_val` of an estimate, 0 when it is absent (R28, decision D11). -/
def rateVal (r : Option (BitVec Config.rateW)) : BitVec Config.rateW := r.getD 0

/-- The output pins `fault[1:0]` (R77). -/
def State.faultPins (s : State) : BitVec 2 := s.blk.fault

/-- The output pin `rate_valid` (R77). -/
def State.rateValidPin (s : State) : Bool := rateValid s.blk.fs.rate

/-- The output pins `rate[5:0]` (R77). -/
def State.ratePins (s : State) : BitVec Config.rateW := rateVal s.blk.fs.rate

/-- The signed 8-bit value of a Polarity Symbol (R110): `0x01` or `0xFF`. -/
def Pol.bits : Pol → BitVec 8
  | .pos => 0x01#8
  | .neg => 0xFF#8

/-- The signed 8-bit value of `rl_last` (R22). -/
def Held.bits : Held → BitVec 8
  | .zero => 0x00#8
  | .pos => 0x01#8
  | .neg => 0xFF#8

/-- A symbol as `rl_last` holds it (R120: "store the new symbol as held"). -/
def Pol.held : Pol → Held
  | .pos => .pos
  | .neg => .neg

end Sys2Proof.Machine
end

