-- ==== Sys2Proof/Machine/Ops.lean ====
section
/-! DEFINITION. The operations every command shares: taking a fault (spec/60_exceptions.md
R214), ignoring commands while faulted (R215), leaving a fault by a reset (R216), committing the
block and its events (spec/00_scope.md R9). A command takes the block to the block after it and
the events it emits, in order. -/

namespace Sys2Proof.Machine

/-- `raise <Fault>` (R9, R214). `b` is the block BEFORE the command: every write the command
made is discarded, no event is emitted, and `fault` takes the code. There is no vector, no
saved pc or status, and no change of mode. -/
def raise {n v : Nat} (c : FaultCause) (b : BlockOf n v) : BlockOf n v := { b with fault := c.code }

/-- A command while `fault ≠ 0` is accepted and ignored (R215); otherwise it runs. -/
def unlessFaulted {n v : Nat} (b : BlockOf n v) (run : BlockOf n v × List Event) :
    BlockOf n v × List Event :=
  if b.faulted then (b, []) else run

/-- What an illegal word does (R74, R195): ILLEGAL_CMD, or nothing while `fault ≠ 0`. -/
def illegalWord {n v : Nat} (b : BlockOf n v) : BlockOf n v × List Event :=
  unlessFaulted b (raise .illegalCmd b, [])

/-- A command that completes: its block, and the events it emitted after those emitted before
(R9 `emit`, R54). -/
def commit (r : Block × List Event) (s : State) : State :=
  { s with blk := r.1, events := s.events ++ r.2 }

/-- Every state element takes its reset value (R39, R241): the only exit from a fault (R216).
What the ports hold is no state element: events already presented stay presented. -/
def resetBlock (s : State) : State := { s with blk := Block.reset }

end Sys2Proof.Machine
end

