-- ==== Sys2Proof/Machine/RunLength.lean ====
section
/-! DEFINITION. Stage 3, RLE (spec/42_run_length.md). -/

namespace Sys2Proof.Machine

/-- The largest run length the counter holds, `2^CNT_W - 1` for `CNT_W = v` (R23, R123). -/
def countLimit (v : Nat) : Nat := 2 ^ v - 1

/-- RLE (R120, R123): an equal symbol is counted, or raises CNT_OVF at the limit; a different
one emits the count, which restarts at zero. -/
def rle {v : Nat} (r : RunStateOf v) (p : Pol) :
    Except FaultCause (Option (BitVec v) × RunStateOf v) :=
  if p.held = r.last then
    if r.count.toNat = countLimit v then .error .cntOvf
    else .ok (none, { r with count := r.count + 1 })
  else .ok (some r.count, ⟨p.held, 0⟩)

end Sys2Proof.Machine
end

