-- ==== Sys2Proof/Machine/Commands.lean ====
section
/-! DEFINITION. The meanings of the four commands (spec/47_commands.md): what each does to a
block under any parameters, and then its meaning on the machine, which is that under the
parameters of this hardware. The state's port has already been read; `Port.lean` advances the
command index. -/

namespace Sys2Proof.Machine

/-- The body of PUSH on a block that is not faulted (R192): the chunk-size test first, then
stages 1, 2 and 3; at most one width is appended. -/
def pushBlock {n v : Nat} (P : Config.Params n v) (x : BitVec n) (b : BlockOf n v) :
    Except FaultCause (BlockOf n v) :=
  if b.chunkN = P.maxChunk then .error .chunkOvf
  else
    let y := smooth P b.sm x
    match rle b.rl (polarBy P.fgt0 y.1) with
    | .error c => .error c
    | .ok r => .ok { b with
        sm := y.2, rl := r.2, rlbuf := b.rlbuf ++ r.1.toList, chunkN := b.chunkN + 1 }

/-- The body of ENDC on a block that is not faulted (R193): MERGE, BIPH, then SYNC for each
bit; the chunk is empty afterwards. -/
def endcBlock {n v : Nat} (b : BlockOf n v) : BlockOf n v × List Event :=
  let ms := merge b.pmAcc.toNat (b.rlbuf.map BitVec.toNat)
  let bs := biph b.bpPending ms.1
  let fs := syncAll b.fs bs.1
  ({ b with pmAcc := BitVec.ofNat (Config.accW v) ms.2, bpPending := bs.2, fs := fs.1,
            rlbuf := [], chunkN := 0 }, fs.2)

/-- NOP on a block (R190): nothing changes. -/
def nopCommand {n v : Nat} (b : BlockOf n v) : BlockOf n v × List Event := (b, [])

/-- PUSH on a block (R192): ignored while `fault ≠ 0`, else its body, or the fault the body
raises, with nothing else changed. -/
def pushCommand {n v : Nat} (P : Config.Params n v) (x : BitVec n) (b : BlockOf n v) :
    BlockOf n v × List Event :=
  unlessFaulted b
    (match pushBlock P x b with
     | .error c => (raise c b, [])
     | .ok t => (t, []))

/-- ENDC on a block (R193): ignored while `fault ≠ 0`, else its body; it raises no fault. -/
def endcCommand {n v : Nat} (b : BlockOf n v) : BlockOf n v × List Event :=
  unlessFaulted b (endcBlock b)

/-- RST on a block (R194): every state element takes its reset value, faulted or not. -/
def rstCommand {n v : Nat} (_ : BlockOf n v) : BlockOf n v × List Event := (BlockOf.reset, [])

/-- NOP (R190). -/
def execNop (s : State) : Host.Outcome State Fault Refusal := .next (commit (nopCommand s.blk) s)

/-- PUSH (R191, R192). -/
def execPush (x : Sample) (s : State) : Host.Outcome State Fault Refusal :=
  .next (commit (pushCommand hardware x s.blk) s)

/-- ENDC (R193). -/
def execEndc (s : State) : Host.Outcome State Fault Refusal := .next (commit (endcCommand s.blk) s)

/-- RST (R194). -/
def execRst (s : State) : Host.Outcome State Fault Refusal := .next (commit (rstCommand s.blk) s)

end Sys2Proof.Machine
end

