-- ==== Sys2Proof/Machine/Dispatch.lean ====
section
/-! DEFINITION. One arm for each constructor of `Instr`. -/

namespace Sys2Proof.Machine

def exec (i : Instr) (s : State) : Host.Outcome State Fault Refusal :=
  match i with
  | .nop => Sys2Proof.Machine.execNop s
  | .push x => Sys2Proof.Machine.execPush x s
  | .endc => Sys2Proof.Machine.execEndc s
  | .rst => Sys2Proof.Machine.execRst s

end Sys2Proof.Machine
end

