-- ==== Sys2Proof/Machine/Port.lean ====
section
/-! DEFINITION. The command port (spec/30_encoding.md R70) and the reset pin
(spec/70_reset_and_hazards.md R240). -/

namespace Sys2Proof.Machine

/-- What a word does once accepted (R72, R195): its command runs, or it is illegal. -/
def runWord (w : CmdWord) (s : State) : Host.Outcome State Fault Refusal :=
  match decode w with
  | .ok i => exec i s
  | .error _ => .next (commit (illegalWord s.blk) s)

/-- A command abandoned by the reset pin (R240): the block is reset, and of the events the
command would have emitted only the first `presented` were presented. `t` is where the
command would have ended. -/
def abandon (presented : Nat) (s t : State) : State :=
  resetBlock { s with
    events := s.events ++ (t.events.drop s.events.length).take presented }

/-- One input of the host. -/
def accept (p : PortInput) (s : State) : Host.Outcome State Fault Refusal :=
  match p with
  | .command w => runWord w s
  | .resetPin => .next (resetBlock s)
  | .resetDuring w presented =>
    match runWord w s with
    | .next t => .next (abandon presented s t)
    | .fault r => .fault r
    | .refused r => .refused r

/-- How far an input moves the command index: every accepted command by one, faulting or not
(R33, R214); the reset pin is no command. -/
def PortInput.advance : PortInput → Nat
  | .command _ => 1
  | .resetPin => 0
  | .resetDuring _ _ => 1

/-- The state with its next input, `p`, read and `rest` still to come. -/
def taken (p : PortInput) (rest : List PortInput) (s : State) : State :=
  { s with port := rest, cmdIndex := s.cmdIndex + p.advance }

/-- One input if the host has one; between commands the block is idle with all state held
(R227). -/
def nextInput (s : State) : Host.Outcome State Fault Refusal :=
  match s.port with
  | [] => .next s
  | p :: rest => accept p (taken p rest s)

/-- The word `w` presented as the very next input (log entry 2). -/
def present (w : CmdWord) (s : State) : State := { s with port := .command w :: s.port }

end Sys2Proof.Machine
end

