-- ==== Sys2Proof/Machine/Step.lean ====
section
/-! DEFINITION. One step of the machine: one input of the host, processed to completion
(spec/10_state.md R33, spec/20_memory.md R54). -/

namespace Sys2Proof.Machine

/-- One step (R33, R54, R70). -/
def step (s : State) : Host.Outcome State Fault Refusal := nextInput s

/-- The machine whose very next step reads the command word with the low `nbits` bits of `w`
from the port, bits numbered as spec/opcode_table.json numbers them (log entries 2, 15). -/
def State.withFetchWord (s : State) (nbits w : Nat) : State :=
  present (BitVec.ofNat Config.cmdW (w % 2 ^ nbits)) s

end Sys2Proof.Machine
end

