-- ==== Sys2Proof/Machine/BlockStep.lean ====
section
/-! DEFINITION. The block as "a single deterministic step function from (state, command) to
(state, events, fault)" (spec/00_scope.md R5), under any parameters that keep a Sample the 32
bits of the command word (R71). The machine of `Port.lean` is this under `hardware`. -/

namespace Sys2Proof.Machine

/-- One command (R190 to R194). -/
def blockCommand {v : Nat} (P : Config.Params Config.sampleW v) (i : Instr)
    (b : BlockOf Config.sampleW v) : BlockOf Config.sampleW v × List Event :=
  match i with
  | .nop => nopCommand b
  | .push x => pushCommand P x b
  | .endc => endcCommand b
  | .rst => rstCommand b

/-- One word, legal or not (R72, R74, R195). -/
def blockWord {v : Nat} (P : Config.Params Config.sampleW v) (w : CmdWord)
    (b : BlockOf Config.sampleW v) : BlockOf Config.sampleW v × List Event :=
  match decode w with
  | .ok i => blockCommand P i b
  | .error _ => illegalWord b

/-- Words accepted one after the other (R33, R54, R55). -/
def blockRun {v : Nat} (P : Config.Params Config.sampleW v) :
    List CmdWord → BlockOf Config.sampleW v → BlockOf Config.sampleW v × List Event
  | [], b => (b, [])
  | w :: ws, b =>
    let r := blockWord P w b
    let rest := blockRun P ws r.1
    (rest.1, r.2 ++ rest.2)

end Sys2Proof.Machine
end

