-- ==== Sys2Proof/Machine/Chunk.lean ====
section
/-! DEFINITION. The chunk as the source's one operation (spec/47_commands.md R196), the command
sequences that stand for it, and the pseudo-commands of spec/30_encoding.md R82. -/

namespace Sys2Proof.Machine

/-- Stage 1 over a whole chunk (R196, R103). -/
def smoothAll {n v : Nat} (P : Config.Params n v) (h : SmHistOf n) :
    List (BitVec n) → List (BitVec n) × SmHistOf n
  | [] => ([], h)
  | x :: xs =>
    let y := smooth P h x
    let rest := smoothAll P y.2 xs
    (y.1 :: rest.1, rest.2)

/-- Stage 3 over a whole chunk (R196): the widths emitted, in order, and the run left. -/
def rleAll {v : Nat} (r : RunStateOf v) :
    List Pol → Except FaultCause (List (BitVec v) × RunStateOf v)
  | [] => .ok ([], r)
  | p :: ps =>
    match rle r p with
    | .error c => .error c
    | .ok o =>
      match rleAll o.2 ps with
      | .error c => .error c
      | .ok rest => .ok (o.1.toList ++ rest.1, rest.2)

/-- ProcessChunk (R196), each stage over the full output of the stage before it, under any
parameters. The count of a run may not pass its register (R123), which the source's unbounded
count never meets. -/
def processChunkFor {n v : Nat} (P : Config.Params n v) (b : BlockOf n v) (xs : List (BitVec n)) :
    Except FaultCause (BlockOf n v × List Event) :=
  let ys := smoothAll P b.sm xs
  let ps := ys.1.map (polarBy P.fgt0)
  match rleAll b.rl ps with
  | .error c => .error c
  | .ok ws =>
    let ms := merge b.pmAcc.toNat (ws.1.map BitVec.toNat)
    let bs := biph b.bpPending ms.1
    let fs := syncAll b.fs bs.1
    .ok ({ b with sm := ys.2, rl := ws.2, pmAcc := BitVec.ofNat (Config.accW v) ms.2,
                  bpPending := bs.2, fs := fs.1 }, fs.2)

/-- ProcessChunk of this hardware (R196). -/
def processChunk (b : Block) (xs : List Sample) : Except FaultCause (Block × List Event) :=
  processChunkFor hardware b xs

/-- The commands of one chunk: a PUSH for each sample, then ENDC (R196). -/
def chunkCommands (xs : List Sample) : List Instr := xs.map .push ++ [.endc]

/-- Commands executed one after the other, in order (R33, R54). -/
def execAll : List Instr → State → Host.Outcome State Fault Refusal
  | [], s => .next s
  | i :: is, s =>
    match exec i s with
    | .next t => execAll is t
    | .fault r => .fault r
    | .refused r => .refused r

/-- A line of the textual command stream (R82), a value given by its raw bits. -/
inductive CommandLine where
  | nop
  | push (x : Sample)
  | endc
  | rst
  /-- `PUSH v *n`. -/
  | pushTimes (x : Sample) (n : Nat)
  /-- `CHUNK [v0, ..., vk]`. -/
  | chunk (xs : List Sample)
  /-- `RAW 0x...`, legal or not. -/
  | raw (w : CmdWord)
deriving DecidableEq, Repr

/-- The words a line stands for (R82). -/
def CommandLine.words : CommandLine → List CmdWord
  | .nop => [encode .nop]
  | .push x => [encode (.push x)]
  | .endc => [encode .endc]
  | .rst => [encode .rst]
  | .pushTimes x n => List.replicate n (encode (.push x))
  | .chunk xs => (chunkCommands xs).map encode
  | .raw w => [w]

/-- A command stream presented on the port after whatever is already there. -/
def presentLines (ls : List CommandLine) (s : State) : State :=
  { s with port := s.port ++ (ls.flatMap CommandLine.words).map .command }

end Sys2Proof.Machine
end

