-- ==== Sys2Proof/Machine/EventWord.lean ====
section
/-! DEFINITION. The 71-bit event word (spec/30_encoding.md R75, R76). -/

namespace Sys2Proof.Machine

/-- The event word of R76, highest field first. -/
def Event.word (e : Event) : EvtWord :=
  rateVal e.rate ++ BitVec.ofBool (rateValid e.rate) ++ e.frame.user ++ e.frame.ubf ++
    BitVec.ofBool e.frame.clock ++ BitVec.ofBool e.frame.colorFrame ++
    BitVec.ofBool e.frame.dropFrame ++ e.frame.hour ++ e.frame.minute ++ e.frame.second ++
    e.frame.frame

/-- The words presented on the event port so far, in order (R75). -/
def State.eventWords (s : State) : List EvtWord := s.events.map Event.word

end Sys2Proof.Machine
end

