-- ==== Sys2Proof/Machine/FiniteBuffer.lean ====
section
/-! DEFINITION. The finite realisation of `fs_buf` (spec/10_state.md R37, decision D9): what the
hardware holds in place of the unbounded bit buffer, and SYNC over it. The machine runs on the
buffer of R26; an obligation states that this realisation shows the same. -/

namespace Sys2Proof.Machine

/-- `fs_bits[0..79]`, `fs_len` (0 to 81) and `fs_tail[15:0]` (R37), with `fs_prev` and
`fs_rate`. -/
structure FiniteSync where
  bits : BitVec 80
  len : Nat
  tail : BitVec 16
  prev : BitVec Config.frameW
  rate : Option (BitVec Config.rateW)
deriving DecidableEq, Repr

/-- The sync word as `fs_tail` holds it, the older bit in the higher place (R79). -/
def syncTail : BitVec 16 := 0b0011111111111101#16

/-- The first 80 bits as the sequence FDEC reads. -/
def FiniteSync.frameBits (h : FiniteSync) : List Bool := List.ofFn fun i : Fin 80 => h.bits.getLsbD i

/-- One more bit: kept in `fs_bits` while there is room, counted up to 81, shifted into
`fs_tail` (R37). -/
def FiniteSync.append (h : FiniteSync) (bit : Bool) : FiniteSync :=
  { h with
    bits := if h.len < 80 then h.bits ||| ((BitVec.ofBool bit).setWidth 80 <<< h.len) else h.bits
    len := min (h.len + 1) 81
    tail := h.tail <<< 1 ||| (BitVec.ofBool bit).setWidth 16 }

/-- A clear of the buffer: no bit is left that counts (R39: contents irrelevant; the bits are
zeroed so that `append` may set them). -/
def FiniteSync.clear (h : FiniteSync) : FiniteSync := { h with bits := 0, len := 0, tail := 0 }

/-- SYNC over the finite realisation (R37, R150). -/
def FiniteSync.sync (h : FiniteSync) (bit : Bool) : FiniteSync × Option Event :=
  if 16 ≤ h.len ∧ h.tail = syncTail then
    if h.len = frameLen then
      let F := fdec h.frameBits
      let rate := rateAfter F.frame h.prev h.rate
      (({ h with prev := F.frame, rate := rate }).clear.append bit, some ⟨F, rate⟩)
    else (({ h with prev := 0, rate := none }).clear.append bit, none)
  else (h.append bit, none)

/-- SYNC for each bit in order. -/
def FiniteSync.syncAll (h : FiniteSync) : List Bool → FiniteSync × List Event
  | [] => (h, [])
  | bit :: bits =>
    let r := h.sync bit
    let rest := r.1.syncAll bits
    (rest.1, r.2.toList ++ rest.2)

/-- The finite realisation after reset (R39). -/
def FiniteSync.reset : FiniteSync := ⟨0, 0, 0, 0, none⟩

end Sys2Proof.Machine
end

