-- ==== Sys2Proof/Safety.lean ====
section
/-! DEFINITION. What counts as a safe state and a safe run, in the terms the claims use: the
invariants of spec/10_state.md R40, and a run that ends with `fault = 0`
(spec/60_exceptions.md R215: "every claim about a run takes `fault = 0` at the end as a
premise"). -/

namespace Sys2Proof.Machine

/-- R40 (a): `chunk_n ≤ MAX_CHUNK` and `len(rlbuf) ≤ chunk_n`. -/
abbrev Block.ChunkBounded (b : Block) : Prop :=
  b.chunkN ≤ Config.maxChunk ∧ b.rlbuf.length ≤ b.chunkN

/-- R40 (b), one direction, as far as the state alone can say it: `rl_last = 0` only in a block
no PUSH has executed in since reset, which differs from the reset block in `fault` at most. -/
abbrev Block.HeldZeroIsFresh (b : Block) : Prop :=
  b.rl.last = .zero → b = { Block.reset with fault := b.fault }

/-- R40 (c): `pm_acc ≤ floor((2^CNT_W - 1) / 4)`. -/
abbrev Block.AccBounded (b : Block) : Prop := b.pmAcc.toNat ≤ (2 ^ Config.cntW - 1) / 4

/-- R40 (d): `fs_prev ≤ 45`. -/
abbrev Block.PrevBounded (b : Block) : Prop := b.fs.prev.toNat ≤ 45

/-- R40 (e): a present estimate lies in 2 to 46. -/
abbrev Block.RateBounded (b : Block) : Prop :=
  ∀ r ∈ b.fs.rate, 2 ≤ r.toNat ∧ r.toNat ≤ 46

/-- The ranges of the table of R76 for one event. -/
abbrev Event.InRange (e : Event) : Prop :=
  e.frame.frame.toNat ≤ 45 ∧ e.frame.second.toNat ≤ 85 ∧ e.frame.minute.toNat ≤ 85 ∧
    e.frame.hour.toNat ≤ 45 ∧ ∀ r ∈ e.rate, 2 ≤ r.toNat ∧ r.toNat ≤ 46

/-- The invariants of R40 on the block. -/
structure Block.Inv (b : Block) : Prop where
  chunk : b.ChunkBounded
  fresh : b.HeldZeroIsFresh
  acc : b.AccBounded
  prev : b.PrevBounded
  rate : b.RateBounded

/-- The invariants of R40, and every event reported so far within the ranges of R76. -/
structure State.Inv (s : State) : Prop where
  blk : s.blk.Inv
  events : ∀ e ∈ s.events, e.InRange

/-- No fault is recorded (R211). -/
abbrev State.Unfaulted (s : State) : Prop := s.blk.fault = 0#2

/-- A safe run of `k` steps: it ends, and with `fault = 0` (R215). -/
abbrev SafeRun (k : Nat) (s t : State) : Prop :=
  core.run k s = .next t ∧ t.Unfaulted

/-- Every state element at the reset value the table of R20 gives it (R39). -/
abbrev Block.HasResetValues (b : Block) : Prop :=
  b.sm.h0 = 0x00000000#32 ∧ b.sm.h1 = 0x00000000#32 ∧ b.sm.h2 = 0x00000000#32 ∧
    b.sm.h3 = 0x00000000#32 ∧ b.rl.last.bits = 0#8 ∧ b.rl.count = 0#32 ∧ b.pmAcc = 0#33 ∧
    b.bpPending = false ∧ b.fs.buf = [] ∧ b.fs.prev = 0#6 ∧ b.fs.rate = none ∧
    b.rlbuf = [] ∧ b.chunkN = 0 ∧ b.fault = 0#2

/-- The Sample with the other sign (R252). -/
def negate (x : Sample) : Sample := x ^^^ 0x80000000#32

/-- `x` is finite and equals `n` units of 2^(j-149), `n` at most 2^21 in magnitude: the
condition of R105 with `k = 149 - j`. -/
abbrev IsMultiple (j : Nat) (n : Int) (x : Sample) : Prop :=
  isNaN x = false ∧ isInf x = false ∧ finiteValue x = n * 2 ^ j ∧ n.natAbs ≤ 2 ^ 21

/-- Finite and below 2^125 in magnitude, so that four of them add up without overflow. -/
abbrev IsModerate (x : Sample) : Prop := expField x ≤ 251

/-- The digit fields of `B` hold this time, each number as its units and tens (R179). -/
abbrev HoldsTime (B : List Bool) (hour minute second frame : Nat) : Prop :=
  fld B 0 4 = frame % 10 ∧ fld B 8 2 = frame / 10 ∧
    fld B 16 4 = second % 10 ∧ fld B 24 3 = second / 10 ∧
    fld B 32 4 = minute % 10 ∧ fld B 40 3 = minute / 10 ∧
    fld B 48 4 = hour % 10 ∧ fld B 56 2 = hour / 10

/-- `B` is a frame as the synchronizer sees one from an empty buffer: 80 bits, the sync word
last, and at no earlier point (R152, R253). -/
abbrev IsCleanFrame (B : List Bool) : Prop :=
  B.length = 80 ∧ syncMatch B = true ∧ ∀ n < 80, syncMatch (B.take n) = false

end Sys2Proof.Machine
end

