-- ==== Sys2Proof/Certificates/Slice0/Obligations.lean ====
section
/-! DEFINITION. The statements about the model, each from the rules of spec/ its docstring
names. `expect` of every one is that it holds. The block has no memory (R50), so a frame says
nothing of memory bytes. -/

open Sys2Proof Sys2Proof.Machine

/-! ## Words -/

/-- R72, R74, R83 and the encoding vectors of 95_test_vectors.md section 3: words written out
there decode to what they stand for. -/
def Obligations.SpecWordsDecode : Prop :=
  decode 0x000000000#34 = .ok .nop ∧ decode 0x200000000#34 = .ok .endc ∧
  decode 0x300000000#34 = .ok .rst ∧ decode 0x13F800000#34 = .ok (.push 0x3F800000#32) ∧
  decode 0x1BF800000#34 = .ok (.push 0xBF800000#32) ∧ decode 0x100000000#34 = .ok (.push 0#32) ∧
  decode 0x1FFFFFFFF#34 = .ok (.push 0xFFFFFFFF#32) ∧
  decode 0x000000001#34 = .error (.nopWithPayload 1#32) ∧
  decode 0x280000000#34 = .error (.endcWithPayload 0x80000000#32) ∧
  decode 0x3FFFFFFFF#34 = .error (.rstWithPayload 0xFFFFFFFF#32)

/-- R71 to R73: decoding and encoding are inverse to each other on commands. -/
def Obligations.DecodeAndEncodeAgree : Prop :=
  (∀ i : Instr, decode (encode i) = .ok i) ∧ ∀ (w : CmdWord) (i : Instr), decode w = .ok i → encode i = w

/-- R72: the decoder, written from the fields of R71, accepts a word for exactly the row whose
mask and match the word meets, and hands PUSH the payload. -/
def Obligations.DecodeFollowsTheMaskMatchRows : Prop :=
  ∀ (w : CmdWord) (i : Instr),
    decode w = .ok i ↔ i.row.accepts w = true ∧ ∀ x, i = .push x → x = payloadField w

/-- R74: a word is illegal exactly when `op` is 00, 10 or 11 and the payload is not zero. -/
def Obligations.IllegalWordsAreThoseWithAForbiddenPayload : Prop :=
  ∀ w : CmdWord,
    ((∃ r, decode w = .error r) ↔ CmdWord.wellFormed w = false) ∧
    (CmdWord.wellFormed w = false ↔
      (opField w = 0b00#2 ∨ opField w = 0b10#2 ∨ opField w = 0b11#2) ∧ payloadField w ≠ 0#32)

/-! ## Steps -/

/-- R33, R54, R70: when the next input is a word that decodes to `i`, the step is `exec i` on
the state with that word read and the command index advanced by one. -/
def Obligations.StepRunsTheDecodedCommand : Prop :=
  ∀ (s : State) (w : CmdWord) (rest : List PortInput) (i : Instr),
    s.port = .command w :: rest → decode w = .ok i →
      step s = exec i { s with port := rest, cmdIndex := s.cmdIndex + 1 }

/-- R74, R195: an illegal word raises ILLEGAL_CMD (code 1) and changes nothing else; while a
fault is recorded it is ignored. This holds for `op = 11` too. -/
def Obligations.IllegalWordRaisesIllegalCmd : Prop :=
  ∀ (s : State) (w : CmdWord) (rest : List PortInput), s.port = .command w :: rest →
    (opField w = 0b00#2 ∨ opField w = 0b10#2 ∨ opField w = 0b11#2) → payloadField w ≠ 0#32 →
      step s = .next { s with
        port := rest, cmdIndex := s.cmdIndex + 1,
        blk := { s.blk with fault := if s.blk.fault = 0#2 then 1#2 else s.blk.fault } }

/-- R227: between commands the block is idle with all state held. That a step with nothing
presented changes nothing is the model's reading (log entry 1). -/
def Obligations.IdleBlockHoldsItsState : Prop :=
  ∀ s : State, s.port = [] → step s = .next s

/-- R254 and "every command has a next state in every state" (93_implementation_defined.md):
the step is total. It reads one input, moves the command index by one for a command (R33) and
by none for the reset pin (log entry 9), and never takes back an event (R75). -/
def Obligations.EveryStepHasANextState : Prop :=
  ∀ s : State, ∃ t, step s = .next t ∧ t.port = s.port.tail ∧
    t.cmdIndex = s.cmdIndex + (s.port.head?.map PortInput.advance).getD 0 ∧ s.events <+: t.events

/-- R240, R241: the reset pin between two commands leaves the block as RST does, and the status
outputs (R77) read fault 0, rate_valid 0, rate 0. That the pin is an input of its own, that it
does not move the command index, and that it keeps the events are the model's choices (log
entries 2, 3, 9). -/
def Obligations.ResetPinLeavesWhatRstLeaves : Prop :=
  ∀ (s : State) (rest : List PortInput), s.port = .resetPin :: rest →
    ∃ t u, step s = .next t ∧ exec .rst s = .next u ∧ t = { s with port := rest, blk := u.blk } ∧
      t.faultPins = 0#2 ∧ t.rateValidPin = false ∧ t.ratePins = 0#6

/-- R240: a command cut short by the reset pin leaves the reset block, and of the events it
would have emitted only those presented before. How many those were is an input, and that the
index advances is the model's choice (log entry 9). -/
def Obligations.ResetPinAbandonsACommand : Prop :=
  ∀ (s : State) (w : CmdWord) (k : Nat) (rest : List PortInput),
    s.port = .resetDuring w k :: rest →
    ∃ t es, step { s with port := .command w :: rest } = .next t ∧ t.events = s.events ++ es ∧
      step s = .next { s with
        port := rest, cmdIndex := s.cmdIndex + 1, blk := Block.reset,
        events := s.events ++ es.take k }

/-! ## Commands -/

/-- R190: NOP, word 0x0_0000_0000, changes no state element and emits nothing; the command
index advances by one; with a payload it is no NOP. -/
def Obligations.NopChangesNothing : Prop :=
  encode .nop = 0x000000000#34 ∧ (∀ s : State, exec .nop s = .next s) ∧
  (∀ (s : State) (rest : List PortInput), s.port = .command 0x000000000#34 :: rest →
    step s = .next { s with port := rest, cmdIndex := s.cmdIndex + 1 }) ∧
  ∀ p : BitVec 32, p ≠ 0#32 → ∀ i, decode (0b00#2 ++ p) ≠ .ok i

/-- R100, R110, R120, R192: a PUSH whose symbol equals the held one counts it. The conclusion
is the whole next state, so it is the frame too. -/
def Obligations.PushContinuesTheRun : Prop :=
  ∀ (s : State) (x : Sample), s.Unfaulted → s.blk.chunkN ≠ Config.maxChunk →
    (polar (mean5 s.blk.sm.h0 s.blk.sm.h1 s.blk.sm.h2 s.blk.sm.h3 x)).held = s.blk.rl.last →
    s.blk.rl.count.toNat ≠ 2 ^ 32 - 1 →
      ∃ c : Width, c.toNat = s.blk.rl.count.toNat + 1 ∧
        exec (.push x) s = .next { s with blk := { s.blk with
          sm := ⟨s.blk.sm.h1, s.blk.sm.h2, s.blk.sm.h3, x⟩
          rl := ⟨s.blk.rl.last, c⟩
          chunkN := s.blk.chunkN + 1 } }

/-- R100, R110, R120, R192: a PUSH whose symbol differs from the held one appends the count to
`rlbuf`, restarts it at zero and holds the new symbol. The conclusion is the whole next
state. -/
def Obligations.PushEndsTheRun : Prop :=
  ∀ (s : State) (x : Sample), s.Unfaulted → s.blk.chunkN ≠ Config.maxChunk →
    (polar (mean5 s.blk.sm.h0 s.blk.sm.h1 s.blk.sm.h2 s.blk.sm.h3 x)).held ≠ s.blk.rl.last →
      exec (.push x) s = .next { s with blk := { s.blk with
        sm := ⟨s.blk.sm.h1, s.blk.sm.h2, s.blk.sm.h3, x⟩
        rl := ⟨(polar (mean5 s.blk.sm.h0 s.blk.sm.h1 s.blk.sm.h2 s.blk.sm.h3 x)).held, 0#32⟩
        rlbuf := s.blk.rlbuf ++ [s.blk.rl.count]
        chunkN := s.blk.chunkN + 1 } }

/-- R192, R211, R213: a PUSH on a full chunk raises CHUNK_OVF (code 2), whatever the counter
holds, and changes nothing else. -/
def Obligations.FullChunkRaisesChunkOvf : Prop :=
  ∀ (s : State) (x : Sample), s.Unfaulted → s.blk.chunkN = 4096 →
    exec (.push x) s = .next { s with blk := { s.blk with fault := 2#2 } }

/-- R123, R211: a PUSH of an equal symbol at a full counter raises CNT_OVF (code 3) and commits
nothing else: `sm_hist`, `rl_count` and `chunk_n` keep their values. -/
def Obligations.FullCounterRaisesCntOvf : Prop :=
  ∀ (s : State) (x : Sample), s.Unfaulted → s.blk.chunkN ≠ 4096 →
    (polar (mean5 s.blk.sm.h0 s.blk.sm.h1 s.blk.sm.h2 s.blk.sm.h3 x)).held = s.blk.rl.last →
    s.blk.rl.count.toNat = 2 ^ 32 - 1 →
      exec (.push x) s = .next { s with blk := { s.blk with fault := 3#2 } }

/-- R193: an ENDC runs MERGE, BIPH and SYNC over the chunk's run lengths and empties the chunk;
`sm_hist`, `rl_last`, `rl_count` and `fault` stay. The conclusion is the whole next state. -/
def Obligations.EndcRunsStages4To6 : Prop :=
  ∀ s : State, s.Unfaulted →
    ∃ ms acc bs pend fs es,
      merge s.blk.pmAcc.toNat (s.blk.rlbuf.map BitVec.toNat) = (ms, acc) ∧
      biph s.blk.bpPending ms = (bs, pend) ∧ syncAll s.blk.fs bs = (fs, es) ∧
      exec .endc s = .next { s with
        blk := { s.blk with pmAcc := BitVec.ofNat 33 acc, bpPending := pend, fs := fs,
                            rlbuf := [], chunkN := 0 }
        events := s.events ++ es }

/-- R193, R133, R143: an ENDC on a chunk with no run length changes only `chunk_n`, to 0. -/
def Obligations.EndcOnAnEmptyChunkClearsOnlyTheCount : Prop :=
  ∀ s : State, s.Unfaulted → s.blk.rlbuf = [] →
    exec .endc s = .next { s with blk := { s.blk with chunkN := 0 } }

/-- Vector V8.2, R193, R215: a second ENDC in a row changes nothing. -/
def Obligations.SecondEndcChangesNothing : Prop :=
  ∀ s t : State, exec .endc s = .next t → exec .endc t = .next t

/-- R194: RST, word 0x3_0000_0000, gives every state element its reset value from any state,
faulted or not; no event is emitted; with a payload it is no RST. -/
def Obligations.RstResetsTheWholeBlock : Prop :=
  encode .rst = 0x300000000#34 ∧
  (∀ s : State, ∃ b : Block, b.HasResetValues ∧ exec .rst s = .next { s with blk := b }) ∧
  ∀ p : BitVec 32, p ≠ 0#32 → ∀ i, decode (0b11#2 ++ p) ≠ .ok i

/-- R215: while a fault is recorded every word is accepted and ignored, but a well-formed RST;
the reset pin works too. That the pin is an input of its own, that it does not move the command
index, and that it keeps the events are the model's choices (log entries 2, 3, 9). -/
def Obligations.FaultedBlockIgnoresAllButReset : Prop :=
  ∀ (s : State) (rest : List PortInput), s.blk.fault ≠ 0#2 →
    (∀ w : CmdWord, s.port = .command w :: rest →
      step s = .next { s with
        port := rest, cmdIndex := s.cmdIndex + 1,
        blk := if w = 0x300000000#34 then Block.reset else s.blk }) ∧
    (s.port = .resetPin :: rest → step s = .next { s with port := rest, blk := Block.reset })

/-- R191, R193, R190, R194, R32: what each command leaves alone, on every path. -/
def Obligations.CommandsKeepTheirFrames : Prop :=
  ∀ s t : State,
    (exec .nop s = .next t → t = s) ∧
    (∀ x, exec (.push x) s = .next t →
      t.port = s.port ∧ t.cmdIndex = s.cmdIndex ∧ t.events = s.events ∧
      t.blk.pmAcc = s.blk.pmAcc ∧ t.blk.bpPending = s.blk.bpPending ∧ t.blk.fs = s.blk.fs ∧
      s.blk.rlbuf <+: t.blk.rlbuf ∧ t.blk.rlbuf.length ≤ s.blk.rlbuf.length + 1) ∧
    (exec .endc s = .next t →
      t.port = s.port ∧ t.cmdIndex = s.cmdIndex ∧ s.events <+: t.events ∧
      t.blk.sm = s.blk.sm ∧ t.blk.rl = s.blk.rl ∧ t.blk.fault = s.blk.fault) ∧
    (exec .rst s = .next t →
      t.port = s.port ∧ t.cmdIndex = s.cmdIndex ∧ t.events = s.events)

/-! ## Rules over all commands -/

/-- R214, R216: a step that changes the `fault` register either raised a fault, and then
changed nothing else of the block and emitted nothing, or reset the block. -/
def Obligations.FaultsArePrecise : Prop :=
  ∀ s t : State, step s = .next t → t.blk.fault ≠ s.blk.fault →
    (s.Unfaulted ∧ t.blk = { s.blk with fault := t.blk.fault } ∧ t.events = s.events) ∨
    (¬ s.Unfaulted ∧ t.blk = Block.reset)

/-- R75, R217: only an ENDC emits events, and only on a block with no fault recorded. -/
def Obligations.OnlyEndcEmits : Prop :=
  ∀ (i : Instr) (s t : State), exec i s = .next t → t.events ≠ s.events →
    i = .endc ∧ s.Unfaulted

/-- R199: the block after a command and the events it emits are a function of the block before
it and the command alone. -/
def Obligations.CommandDependsOnTheBlockAlone : Prop :=
  ∀ (i : Instr) (s u : State), s.blk = u.blk →
    ∃ b es, exec i s = .next { s with blk := b, events := s.events ++ es } ∧
      exec i u = .next { u with blk := b, events := u.events ++ es }

/-- R39, R240, R241: every state element after either kind of reset, and in `State.reset`, at
the value of the table of R20; the finite bit buffer is empty. -/
def Obligations.ResetLeavesTheResetValues : Prop :=
  State.reset.blk.HasResetValues ∧ FiniteSync.reset.len = 0 ∧
  (∀ s : State, ∃ t, exec .rst s = .next t ∧ t.blk.HasResetValues) ∧
  ∀ (s : State) (rest : List PortInput), s.port = .resetPin :: rest →
    ∃ t, step s = .next t ∧ t.blk.HasResetValues

/-- R40: the invariants hold after reset. -/
def Obligations.ResetMeetsTheInvariants : Prop := State.reset.Inv

/-- R40 (a) to (e), R76: every step keeps the invariants, from any state that meets them. -/
def Obligations.EveryStepKeepsTheInvariants : Prop :=
  ∀ s t : State, s.Inv → step s = .next t → t.Inv

/-- R22, R40 (b), R112: after any PUSH that completes, `rl_last` is +1 or -1. -/
def Obligations.PushLeavesASymbolHeld : Prop :=
  ∀ (s t : State) (x : Sample), exec (.push x) s = .next t → s.Unfaulted → t.Unfaulted →
    t.blk.rl.last ≠ .zero ∧ t.blk.chunkN = s.blk.chunkN + 1

/-! ## Stage 1 -/

/-- R102 P1: five samples strictly greater than zero have a mean strictly greater than zero. -/
def Obligations.MeanOfPositivesIsPositive : Prop :=
  ∀ h0 h1 h2 h3 x : Sample, fgt0 h0 = true → fgt0 h1 = true → fgt0 h2 = true → fgt0 h3 = true →
    fgt0 x = true → fgt0 (mean5 h0 h1 h2 h3 x) = true

/-- R102 P2: five samples less than or equal to zero have a mean that is no NaN and not
strictly greater than zero. -/
def Obligations.MeanOfNonPositivesIsNonPositive : Prop :=
  ∀ h0 h1 h2 h3 x : Sample, (∀ y ∈ [h0, h1, h2, h3, x], isNaN y = false ∧ fgt0 y = false) →
    isNaN (mean5 h0 h1 h2 h3 x) = false ∧ fgt0 (mean5 h0 h1 h2 h3 x) = false

/-- R101, R104: MEAN5 is the ordered sum over 5.0, of any samples. A NaN anywhere in the window, or
infinities of both signs, give a NaN, whichever NaN the free value is; infinities of one sign
beside samples too small to overflow give that infinity; five zeros give a zero. Infinities of
one sign beside any samples but a NaN give that infinity or a NaN, and a NaN exactly where a
partial sum of R101 has overflowed to the other infinity (log entry 17). -/
def Obligations.MeanOfSpecialValues : Prop :=
  ∀ h0 h1 h2 h3 x : Sample,
    ((∃ y ∈ [h0, h1, h2, h3, x], isNaN y = true) → isNaN (mean5 h0 h1 h2 h3 x) = true) ∧
    (0x7F800000#32 ∈ [h0, h1, h2, h3, x] → 0xFF800000#32 ∈ [h0, h1, h2, h3, x] →
      isNaN (mean5 h0 h1 h2 h3 x) = true) ∧
    (∀ inf ∈ [0x7F800000#32, 0xFF800000#32], inf ∈ [h0, h1, h2, h3, x] →
      (∀ y ∈ [h0, h1, h2, h3, x], y = inf ∨ IsModerate y) → mean5 h0 h1 h2 h3 x = inf) ∧
    ((∀ y ∈ [h0, h1, h2, h3, x], isZero y = true) → isZero (mean5 h0 h1 h2 h3 x) = true) ∧
    (∀ inf ∈ [0x7F800000#32, 0xFF800000#32], inf ∈ [h0, h1, h2, h3, x] →
      (∀ y ∈ [h0, h1, h2, h3, x], isNaN y = false ∧ y ≠ negate inf) →
        (mean5 h0 h1 h2 h3 x = inf ∨ isNaN (mean5 h0 h1 h2 h3 x) = true) ∧
        (isNaN (mean5 h0 h1 h2 h3 x) = true ↔
          negate inf ∈ [fadd32 h0 h1, fadd32 (fadd32 h0 h1) h2,
            fadd32 (fadd32 (fadd32 h0 h1) h2) h3])) ∧
    mean5 h0 h1 h2 h3 x =
      fdiv32 (fadd32 (fadd32 (fadd32 (fadd32 h0 h1) h2) h3) x) 0x40A00000#32

/-- R105, R102 P3: where every sample is a multiple of one power of two with at most 21 bits,
the smoothed value is positive, zero or negative exactly as the exact sum is. `j` from 3 keeps
a fifth of the unit above underflow, `j` up to 253 keeps the sums below overflow. -/
def Obligations.MeanHasTheSignOfTheExactSum : Prop :=
  ∀ (j : Nat) (n0 n1 n2 n3 n4 : Int) (h0 h1 h2 h3 x : Sample), 3 ≤ j → j ≤ 253 →
    IsMultiple j n0 h0 → IsMultiple j n1 h1 → IsMultiple j n2 h2 → IsMultiple j n3 h3 →
    IsMultiple j n4 x →
      isNaN (mean5 h0 h1 h2 h3 x) = false ∧
      (fgt0 (mean5 h0 h1 h2 h3 x) = true ↔ 0 < n0 + n1 + n2 + n3 + n4) ∧
      (isZero (mean5 h0 h1 h2 h3 x) = true ↔ n0 + n1 + n2 + n3 + n4 = 0)

/-- R252: negating every sample negates the smoothed value exactly, when it is no NaN and no
zero. -/
def Obligations.NegatedWindowHasTheNegatedMean : Prop :=
  ∀ h0 h1 h2 h3 x : Sample,
    isNaN (mean5 h0 h1 h2 h3 x) = false → isZero (mean5 h0 h1 h2 h3 x) = false →
      mean5 (negate h0) (negate h1) (negate h2) (negate h3) (negate x) =
        negate (mean5 h0 h1 h2 h3 x)

/-- R106: on a two-level signal the polarity turns at the third sample after a transition, in
both directions, for a level within R105. -/
def Obligations.PolarityTurnsTwoSamplesLate : Prop :=
  ∀ (j : Nat) (n : Int) (a : Sample), 3 ≤ j → j ≤ 253 → 0 < n → IsMultiple j n a →
    polar (mean5 a a a a (negate a)) = .pos ∧
    polar (mean5 a a a (negate a) (negate a)) = .pos ∧
    polar (mean5 a a (negate a) (negate a) (negate a)) = .neg ∧
    polar (mean5 (negate a) (negate a) (negate a) (negate a) a) = .neg ∧
    polar (mean5 (negate a) (negate a) (negate a) a a) = .neg ∧
    polar (mean5 (negate a) (negate a) a a a) = .pos

/-- R21, R100, R104: after four PUSH commands that complete, the window holds those four samples
and nothing older, so a special value affects five means and no more. -/
def Obligations.WindowHoldsTheLastFourSamples : Prop :=
  ∀ (a b c d : Sample) (s t : State),
    execAll [.push a, .push b, .push c, .push d] s = .next t → t.Unfaulted →
      t.blk.sm = ⟨a, b, c, d⟩

/-- R252, R111: silence is one endless negative run: while the window is all zeros and -1 is held,
a PUSH of a zero of either sign completes, emits no width and counts one more. -/
def Obligations.SilenceEmitsNoWidth : Prop :=
  ∀ (s : State) (x : Sample), s.Unfaulted → s.blk.chunkN ≠ Config.maxChunk →
    (∀ y ∈ [s.blk.sm.h0, s.blk.sm.h1, s.blk.sm.h2, s.blk.sm.h3, x], isZero y = true) →
    s.blk.rl.last = .neg → s.blk.rl.count.toNat ≠ 2 ^ 32 - 1 →
      ∃ t, exec (.push x) s = .next t ∧ t.Unfaulted ∧ t.blk.rlbuf = s.blk.rlbuf ∧
        t.blk.rl.last = .neg ∧ t.blk.rl.count.toNat = s.blk.rl.count.toNat + 1

/-! ## Stages 2 and 3 -/

/-- R111: the bit form of the polarity and its corner cases. -/
def Obligations.PolarityFollowsTheBitForm : Prop :=
  (∀ y : Sample, polar y = .pos ↔
    y.getLsbD 31 = false ∧ y.extractLsb' 0 31 ≠ 0#31 ∧
      ¬ (y.extractLsb' 23 8 = 0xFF#8 ∧ y.extractLsb' 0 23 ≠ 0#23)) ∧
  polar 0x00000000#32 = .neg ∧ polar 0x80000000#32 = .neg ∧ polar 0x00000001#32 = .pos ∧
  polar 0x7F800000#32 = .pos ∧ polar 0xFF800000#32 = .neg ∧
  ∀ y : Sample, isNaN y = true → polar y = .neg

/-- R121: from reset the first PUSH of any sample completes and emits the width 0. -/
def Obligations.FirstPushEmitsWidthZero : Prop :=
  ∀ x : Sample, ∃ t, exec (.push x) State.reset = .next t ∧ t.blk.rlbuf = [0#32] ∧
    t.blk.rl.count = 0#32 ∧ t.blk.rl.last ≠ .zero ∧ t.blk.chunkN = 1

/-- R122: over any sequence of symbols, the widths emitted plus the count at the end equal the
count at the start plus the symbols less one for each width. -/
def Obligations.RunLengthsAccountForEverySymbol : Prop :=
  ∀ (r r' : RunState) (ps : List Pol) (ws : List Width), rleAll r ps = .ok (ws, r') →
    (ws.map BitVec.toNat).sum + r'.count.toNat + ws.length = r.count.toNat + ps.length

/-- R122, 90_conflicts.md C1: a run of `N` equal symbols gives a fresh filter the width 0 and the
count `N - 1`; continuing a held run it emits nothing and adds `N`. -/
def Obligations.RunOfEqualSymbolsIsCounted : Prop :=
  ∀ (p : Pol) (N : Nat) (c : Width),
    (0 < N → N ≤ 2 ^ 32 → ∃ k : Width, k.toNat = N - 1 ∧
      rleAll Block.reset.rl (List.replicate N p) = .ok ([0#32], ⟨p.held, k⟩)) ∧
    (c.toNat + N < 2 ^ 32 → ∃ k : Width, k.toNat = c.toNat + N ∧
      rleAll ⟨p.held, c⟩ (List.replicate N p) = .ok ([], ⟨p.held, k⟩))

/-- R124, R247: cutting a stream of PUSH commands by an ENDC changes neither the state of
stages 1 and 3 nor the widths emitted. -/
def Obligations.ChunkBoundariesDoNotChangeTheWidths : Prop :=
  ∀ (xs ys : List Sample) (s m t u : State),
    execAll (xs.map .push) s = .next m →
    execAll (xs.map .push ++ [.endc] ++ ys.map .push) s = .next t →
    execAll ((xs ++ ys).map .push) s = .next u → t.Unfaulted → u.Unfaulted →
      t.blk.sm = u.blk.sm ∧ t.blk.rl = u.blk.rl ∧ u.blk.rlbuf = m.blk.rlbuf ++ t.blk.rlbuf

/-! ## Stage 4 -/

/-- R135: what goes into MERGE comes out or stays in the accumulator. -/
def Obligations.MergeConservesWidth : Prop :=
  ∀ (acc : Nat) (ws : List Nat),
    (merge acc ws).1.sum + (merge acc ws).2 = acc + ws.sum

/-- R134, R135: after a chunk that is not empty four times the accumulator is at most the
maximum; no merged width is 0; a chunk with a width that is not 0 emits; MERGE never lengthens
a chunk. -/
def Obligations.MergeBoundsItsAccumulator : Prop :=
  ∀ (acc : Nat) (ws : List Nat),
    (ws ≠ [] → 4 * (merge acc ws).2 ≤ maxWidth ws) ∧ (∀ m ∈ (merge acc ws).1, 1 ≤ m) ∧
    ((∃ w ∈ ws, w ≠ 0) → (merge acc ws).1 ≠ []) ∧ (merge acc ws).1.length ≤ ws.length

/-- R135: in a block that meets R40 every merged width fits `ACC_W` bits, and the accumulator
register holds exactly what MERGE leaves. -/
def Obligations.MergedWidthsFitTheirRegisters : Prop :=
  ∀ b : Block, b.Inv →
    (∀ m ∈ (merge b.pmAcc.toNat (b.rlbuf.map BitVec.toNat)).1, m < 2 ^ 33) ∧
    (endcBlock b).1.pmAcc.toNat = (merge b.pmAcc.toNat (b.rlbuf.map BitVec.toNat)).2

/-- R131, R141: the two thresholds, read as fractions or as integer quotients. -/
def Obligations.ThresholdsReadTheSameEitherWay : Prop :=
  ∀ a m : Nat,
    (mergeFactor * a > m ↔ (a : ℚ) > (m : ℚ) / 4) ∧ (mergeFactor * a > m ↔ a > m / 4) ∧
    (isLong m a = true ↔ (a : ℚ) > (m : ℚ) / 2) ∧ (isLong m a = true ↔ a > m / 2)

/-! ## Stage 5 -/

/-- R142, R144: the four rows of the table "biphase decoding cases", at the head of any
chunk. -/
def Obligations.BiphaseFollowsTheCaseTable : Prop :=
  ∀ (d w : Nat) (ws : List Nat),
    (isLong d w = true → biphLoop d false (w :: ws) =
      (false :: (biphLoop d false ws).1, (biphLoop d false ws).2)) ∧
    (isLong d w = false → biphLoop d false (w :: ws) = biphLoop d true ws) ∧
    biphLoop d true (w :: ws) = (true :: (biphLoop d false ws).1, (biphLoop d false ws).2)

/-- R142, R144: a 0 takes one pulse and a 1 takes two, counting the one pending before; no bit
is emitted for a pulse left pending. -/
def Obligations.BiphaseAccountsForEveryPulse : Prop :=
  ∀ (pend : Bool) (ms : List Nat),
    ms.length + pend.toNat = (biph pend ms).1.count false + 2 * (biph pend ms).1.count true +
      (biph pend ms).2.toNat

/-- R143: an empty chunk does nothing; equal widths are all long; the widest is always long; the
narrowest is short exactly when three times it is at most the widest. Every width is at least
1, as MERGE leaves them. -/
def Obligations.SpreadClassifiesWidestAndNarrowest : Prop :=
  (∀ pend, biph pend [] = ([], pend)) ∧
  ∀ ms : List Nat, ms ≠ [] → (∀ w ∈ ms, 1 ≤ w) →
    ((∀ v ∈ ms, ∀ w ∈ ms, v = w) → spread ms = 0 ∧ ∀ w ∈ ms, isLong (spread ms) w = true) ∧
    maxWidth ms ∈ ms ∧ minWidth ms ∈ ms ∧ isLong (spread ms) (maxWidth ms) = true ∧
    (isLong (spread ms) (minWidth ms) = false ↔ 3 * minWidth ms ≤ maxWidth ms)

/-- R145: a chunk whose widest pulse is below three times its narrowest decodes, with no half bit
pending, to zeros only. -/
def Obligations.NarrowSpreadDecodesToZeros : Prop :=
  ∀ (ms : List Nat) (lo hi : Nat), 1 ≤ lo → hi < 3 * lo → (∀ w ∈ ms, lo ≤ w ∧ w ≤ hi) →
    biph false ms = (List.replicate ms.length false, false)

/-! ## Stage 6 -/

/-- R150 to R156: SYNC on one bit, case by case. An accepted frame carries the estimate after
its own update; the estimate at a decrease is one more than the number held before. -/
def Obligations.SyncDecidesOnTheBufferBeforeTheBit : Prop :=
  ∀ (f : SyncState) (bit : Bool), f.prev.toNat ≤ 45 →
    (syncMatch f.buf = false → sync f bit = ({ f with buf := f.buf ++ [bit] }, none)) ∧
    (syncMatch f.buf = true → f.buf.length ≠ 80 → sync f bit = (⟨[bit], 0, none⟩, none)) ∧
    (syncMatch f.buf = true → f.buf.length = 80 → ∃ rate,
      sync f bit = (⟨[bit], (fdec f.buf).frame, rate⟩, some ⟨fdec f.buf, rate⟩) ∧
      ((fdec f.buf).frame.toNat < f.prev.toNat → ∃ r, rate = some r ∧ r.toNat = f.prev.toNat + 1) ∧
      (f.prev.toNat ≤ (fdec f.buf).frame.toNat → rate = f.rate))

/-- R151, R79: the match looks at exactly the last 16 bits, all of them, in order, and a shorter
buffer does not match. -/
def Obligations.MatchComparesTheLast16Bits : Prop :=
  ∀ buf : List Bool, syncMatch buf = true ↔
    16 ≤ buf.length ∧ ∀ i < 16, buf[buf.length - 16 + i]? =
      ([false, false, true, true, true, true, true, true,
        true, true, true, true, true, true, false, true])[i]?

/-- R152, R154: fed to an empty buffer, a frame with no earlier match is held until the next bit,
which delivers it, once, and starts the next buffer. -/
def Obligations.FrameIsDeliveredByTheNextBit : Prop :=
  ∀ (B : List Bool) (prev : BitVec 6) (rate : Option (BitVec 6)) (bit : Bool), IsCleanFrame B →
    syncAll ⟨[], prev, rate⟩ B = (⟨B, prev, rate⟩, []) ∧
    syncAll ⟨[], prev, rate⟩ (B ++ [bit]) =
      (⟨[bit], (fdec B).frame, rateAfter (fdec B).frame prev rate⟩,
        [⟨fdec B, rateAfter (fdec B).frame prev rate⟩])

/-- R37: the finite realisation gives the same events, the same `fs_prev` and the same `fs_rate`
as the unbounded buffer, for every sequence of bits after reset. -/
def Obligations.FiniteBufferShowsTheSame : Prop :=
  ∀ bits : List Bool,
    (FiniteSync.reset.syncAll bits).2 = (syncAll Block.reset.fs bits).2 ∧
    (FiniteSync.reset.syncAll bits).1.prev = (syncAll Block.reset.fs bits).1.prev ∧
    (FiniteSync.reset.syncAll bits).1.rate = (syncAll Block.reset.fs bits).1.rate

/-! ## Frames and events -/

/-- R80, R170, R176, R177: the layout is the table of R80 and covers each of the 80 indices once;
FDEC reads it, each part of the record being the numbers of its rows; the record depends on
bits 0 to 63 alone; and with the units digits known it determines every one of them. -/
def Obligations.FdecReadsTheLayout : Prop :=
  frameLayout.map (fun r => (r.offset, r.width)) =
    [(0, 4), (4, 4), (8, 2), (10, 1), (11, 1), (12, 4), (16, 4), (20, 4), (24, 3), (27, 1),
     (28, 4), (32, 4), (36, 4), (40, 3), (43, 1), (44, 4), (48, 4), (52, 4), (56, 2), (58, 1),
     (59, 1), (60, 4), (64, 16)] ∧
  (∀ i < 80, (frameLayout.filter fun r => decide (r.offset ≤ i ∧ i < r.offset + r.width)).length = 1) ∧
  (∀ B : List Bool,
    (fdec B).frame.toNat = field B rowFrameUnits + 10 * field B rowFrameTens ∧
    (fdec B).second.toNat = field B rowSecondUnits + 10 * field B rowSecondTens ∧
    (fdec B).minute.toNat = field B rowMinuteUnits + 10 * field B rowMinuteTens ∧
    (fdec B).hour.toNat = field B rowHourUnits + 10 * field B rowHourTens ∧
    (fdec B).dropFrame.toNat = field B rowDropFrame ∧
    (fdec B).colorFrame.toNat = field B rowColorFrame ∧
    (fdec B).clock.toNat = field B rowClock ∧
    (fdec B).ubf.toNat =
      field B rowFormat1 + 2 * field B rowFormat2 + 4 * field B rowFormat3 ∧
    (fdec B).user.toNat =
      field B rowUser1 + 16 * field B rowUser2 + 16 ^ 2 * field B rowUser3 +
      16 ^ 3 * field B rowUser4 + 16 ^ 4 * field B rowUser5 + 16 ^ 5 * field B rowUser6 +
      16 ^ 6 * field B rowUser7 + 16 ^ 7 * field B rowUser8) ∧
  (∀ B C : List Bool, (∀ i < 64, bitAt B i = bitAt C i) → fdec B = fdec C) ∧
  ∀ B C : List Bool, fdec B = fdec C →
    (∀ r ∈ [rowFrameUnits, rowSecondUnits, rowMinuteUnits, rowHourUnits], field B r = field C r) →
      ∀ i < 64, bitAt B i = bitAt C i

/-- R171, R172: the decoded numbers are the exact units plus ten times tens, and lie within 45,
85, 85 and 45, whatever the bits. -/
def Obligations.DecodedNumbersAreExact : Prop :=
  ∀ B : List Bool,
    (fdec B).frame.toNat = fld B 0 4 + 10 * fld B 8 2 ∧
    (fdec B).second.toNat = fld B 16 4 + 10 * fld B 24 3 ∧
    (fdec B).minute.toNat = fld B 32 4 + 10 * fld B 40 3 ∧
    (fdec B).hour.toNat = fld B 48 4 + 10 * fld B 56 2 ∧
    (fdec B).frame.toNat ≤ 45 ∧ (fdec B).second.toNat ≤ 85 ∧ (fdec B).minute.toNat ≤ 85 ∧
    (fdec B).hour.toNat ≤ 45

/-- R178, R179: a buffer built from a time decodes to that time and renders as
`HH:MM:SS:FFF`. -/
def Obligations.TimeSurvivesDecodingAndRendering : Prop :=
  ∀ (B : List Bool) (h m s f : Nat), h ≤ 39 → m ≤ 79 → s ≤ 79 → f ≤ 39 → HoldsTime B h m s f →
    (fdec B).hour.toNat = h ∧ (fdec B).minute.toNat = m ∧ (fdec B).second.toNat = s ∧
    (fdec B).frame.toNat = f ∧
    render (fdec B) =
      [Nat.digitChar (h / 10), Nat.digitChar (h % 10), ':',
       Nat.digitChar (m / 10), Nat.digitChar (m % 10), ':',
       Nat.digitChar (s / 10), Nat.digitChar (s % 10), ':',
       '0', Nat.digitChar (f / 10), Nat.digitChar (f % 10)]

/-- R81, R174, R175: flags, format indicator and user data are copies of their buffer bits, the
first arrived in the least significant place. -/
def Obligations.FlagsAndUserBitsAreCopies : Prop :=
  ∀ B : List Bool,
    (fdec B).dropFrame = bitAt B 10 ∧ (fdec B).colorFrame = bitAt B 11 ∧
    (fdec B).clock = bitAt B 58 ∧
    (∀ k < 3, (fdec B).ubf.getLsbD k = bitAt B (27 + 16 * k)) ∧
    ∀ k < 8, ∀ i < 4, (fdec B).user.getLsbD (4 * k + i) = bitAt B (4 + 8 * k + i)

/-- R76: every field of the event word at its place; the unknown estimate is valid 0, value 0. -/
def Obligations.EventWordHoldsEveryField : Prop :=
  ∀ e : Event,
    e.word.extractLsb' 0 6 = e.frame.frame ∧ e.word.extractLsb' 6 7 = e.frame.second ∧
    e.word.extractLsb' 13 7 = e.frame.minute ∧ e.word.extractLsb' 20 6 = e.frame.hour ∧
    e.word.getLsbD 26 = e.frame.dropFrame ∧ e.word.getLsbD 27 = e.frame.colorFrame ∧
    e.word.getLsbD 28 = e.frame.clock ∧ e.word.extractLsb' 29 3 = e.frame.ubf ∧
    e.word.extractLsb' 32 32 = e.frame.user ∧ e.word.getLsbD 64 = e.rate.isSome ∧
    e.word.extractLsb' 65 6 = e.rate.getD 0#6

/-! ## The chunk -/

/-- R196: from between two chunks, PUSH for each sample and then ENDC do what ProcessChunk does,
each stage over the full output of the one before; where a run passes its counter, the commands
end in CNT_OVF; a run that stays within it does not. -/
def Obligations.ChunkCommandsDoProcessChunk : Prop :=
  ∀ (s : State) (xs : List Sample), s.Unfaulted → s.blk.chunkN = 0 → s.blk.rlbuf = [] →
    xs.length ≤ Config.maxChunk →
    (∀ b es, processChunk s.blk xs = .ok (b, es) →
      execAll (chunkCommands xs) s = .next { s with blk := b, events := s.events ++ es }) ∧
    (∀ c, processChunk s.blk xs = .error c →
      ∃ t, execAll (chunkCommands xs) s = .next t ∧ t.blk.fault = 3#2) ∧
    (s.blk.rl.count.toNat + xs.length < 2 ^ 32 → ∃ r, processChunk s.blk xs = .ok r)

/-! ## The parameters -/

/-- R6, 92_eei_decisions.md D5 to D8, R30, R123, R135, R192: under ANY values of the open
parameters a PUSH takes MEAN5, `fgt0`, MAX_CHUNK and CNT_W from them, each outcome given whole,
and an ENDC on an accumulator within R40 (c) keeps every merged width within ACC_W; the
machine's commands are the block's under the defaults, which are those of R6. -/
def Obligations.CommandsTakeTheirParameters : Prop :=
  (∀ (n v : Nat) (P : Config.Params n v) (b : BlockOf n v) (x : BitVec n), b.fault = 0#2 →
    ∀ p, p = (if P.fgt0 (P.mean5 b.sm.h0 b.sm.h1 b.sm.h2 b.sm.h3 x) = true then Pol.pos
              else Pol.neg) →
      (b.chunkN = P.maxChunk → pushCommand P x b = ({ b with fault := 2#2 }, [])) ∧
      (b.chunkN ≠ P.maxChunk → p.held = b.rl.last → b.rl.count.toNat = 2 ^ v - 1 →
        pushCommand P x b = ({ b with fault := 3#2 }, [])) ∧
      (b.chunkN ≠ P.maxChunk → p.held = b.rl.last → b.rl.count.toNat ≠ 2 ^ v - 1 →
        ∃ c : BitVec v, c.toNat = b.rl.count.toNat + 1 ∧
          pushCommand P x b = ({ b with
            sm := ⟨b.sm.h1, b.sm.h2, b.sm.h3, x⟩, rl := ⟨b.rl.last, c⟩
            chunkN := b.chunkN + 1 }, [])) ∧
      (b.chunkN ≠ P.maxChunk → p.held ≠ b.rl.last →
        pushCommand P x b = ({ b with
          sm := ⟨b.sm.h1, b.sm.h2, b.sm.h3, x⟩, rl := ⟨p.held, 0⟩
          rlbuf := b.rlbuf ++ [b.rl.count], chunkN := b.chunkN + 1 }, []))) ∧
  (∀ (n v : Nat) (b : BlockOf n v), 4 * b.pmAcc.toNat ≤ 2 ^ v - 1 →
    (∀ m ∈ (merge b.pmAcc.toNat (b.rlbuf.map BitVec.toNat)).1, m < 2 ^ (v + 1)) ∧
    (endcBlock b).1.pmAcc.toNat = (merge b.pmAcc.toNat (b.rlbuf.map BitVec.toNat)).2 ∧
    4 * (endcBlock b).1.pmAcc.toNat ≤ 2 ^ v - 1) ∧
  (∀ (i : Instr) (s : State), exec i s = .next { s with
    blk := (blockCommand hardware i s.blk).1
    events := s.events ++ (blockCommand hardware i s.blk).2 }) ∧
  hardware.mean5 = mean5 ∧ hardware.fgt0 = fgt0 ∧ hardware.maxChunk = 4096 ∧
  Config.sampleW = 32 ∧ Config.cntW = 32
end

