-- ==== Sys2Proof/Laws/State.lean ====
section
/-! SUPPORT. What each shared update of the state or the block leaves in each field, true by
`rfl`, so that no later proof unfolds a record update. -/

namespace Sys2Proof.Machine

variable {n v : Nat} (c : FaultCause) (b : BlockOf n v) (r : Block × List Event)
  (s t : State) (p : PortInput) (rest : List PortInput) (w : CmdWord) (k : Nat)

@[simp] theorem raise_fault : (raise c b).fault = c.code := rfl
@[simp] theorem raise_sm : (raise c b).sm = b.sm := rfl
@[simp] theorem raise_rl : (raise c b).rl = b.rl := rfl
@[simp] theorem raise_pmAcc : (raise c b).pmAcc = b.pmAcc := rfl
@[simp] theorem raise_bpPending : (raise c b).bpPending = b.bpPending := rfl
@[simp] theorem raise_fs : (raise c b).fs = b.fs := rfl
@[simp] theorem raise_rlbuf : (raise c b).rlbuf = b.rlbuf := rfl
@[simp] theorem raise_chunkN : (raise c b).chunkN = b.chunkN := rfl

@[simp] theorem resetBlock_blk : (resetBlock s).blk = Block.reset := rfl
@[simp] theorem resetBlock_port : (resetBlock s).port = s.port := rfl
@[simp] theorem resetBlock_cmdIndex : (resetBlock s).cmdIndex = s.cmdIndex := rfl
@[simp] theorem resetBlock_events : (resetBlock s).events = s.events := rfl

@[simp] theorem commit_blk : (commit r s).blk = r.1 := rfl
@[simp] theorem commit_port : (commit r s).port = s.port := rfl
@[simp] theorem commit_cmdIndex : (commit r s).cmdIndex = s.cmdIndex := rfl
@[simp] theorem commit_events : (commit r s).events = s.events ++ r.2 := rfl

/-- A command that emits nothing only replaces the block. -/
theorem commit_silent (b : Block) : commit (b, []) s = { s with blk := b } := by
  simp [commit]

@[simp] theorem taken_blk : (taken p rest s).blk = s.blk := rfl
@[simp] theorem taken_port : (taken p rest s).port = rest := rfl
@[simp] theorem taken_cmdIndex : (taken p rest s).cmdIndex = s.cmdIndex + p.advance := rfl
@[simp] theorem taken_events : (taken p rest s).events = s.events := rfl

@[simp] theorem present_blk : (present w s).blk = s.blk := rfl
@[simp] theorem present_port : (present w s).port = .command w :: s.port := rfl
@[simp] theorem present_cmdIndex : (present w s).cmdIndex = s.cmdIndex := rfl
@[simp] theorem present_events : (present w s).events = s.events := rfl

@[simp] theorem abandon_blk : (abandon k s t).blk = Block.reset := rfl
@[simp] theorem abandon_port : (abandon k s t).port = s.port := rfl
@[simp] theorem abandon_cmdIndex : (abandon k s t).cmdIndex = s.cmdIndex := rfl
@[simp] theorem abandon_events :
    (abandon k s t).events = s.events ++ (t.events.drop s.events.length).take k := rfl

@[simp] theorem reset_sm : (BlockOf.reset : BlockOf n v).sm = ⟨0, 0, 0, 0⟩ := rfl
@[simp] theorem reset_rl : (BlockOf.reset : BlockOf n v).rl = ⟨.zero, 0⟩ := rfl
@[simp] theorem reset_pmAcc : (BlockOf.reset : BlockOf n v).pmAcc = 0 := rfl
@[simp] theorem reset_bpPending : (BlockOf.reset : BlockOf n v).bpPending = false := rfl
@[simp] theorem reset_fs : (BlockOf.reset : BlockOf n v).fs = ⟨[], 0, none⟩ := rfl
@[simp] theorem reset_rlbuf : (BlockOf.reset : BlockOf n v).rlbuf = [] := rfl
@[simp] theorem reset_chunkN : (BlockOf.reset : BlockOf n v).chunkN = 0 := rfl
@[simp] theorem reset_fault : (BlockOf.reset : BlockOf n v).fault = 0 := rfl

@[simp] theorem hardware_mean5 : hardware.mean5 = mean5 := rfl
@[simp] theorem hardware_fgt0 : hardware.fgt0 = fgt0 := rfl
@[simp] theorem hardware_maxChunk : hardware.maxChunk = Config.maxChunk := rfl

end Sys2Proof.Machine
end

