-- ==== Sys2Proof/Laws/Ops.lean ====
section
/-! SUPPORT. One lemma for each shared operation and each meaning, saying once everything it can
do; later proofs cite these and do not unfold. -/

namespace Sys2Proof.Machine

variable {n v : Nat}

theorem faulted_iff (b : BlockOf n v) : b.faulted = true ↔ b.fault ≠ 0#2 := by
  simp [BlockOf.faulted]

theorem unlessFaulted_of_faulted {b : BlockOf n v} {run : BlockOf n v × List Event}
    (h : b.fault ≠ 0#2) : unlessFaulted b run = (b, []) := by
  simp [unlessFaulted, (faulted_iff b).2 h]

theorem unlessFaulted_of_unfaulted {b : BlockOf n v} {run : BlockOf n v × List Event}
    (h : b.fault = 0#2) : unlessFaulted b run = run := by
  simp [unlessFaulted, BlockOf.faulted, h]

/-- Everything RLE can do when it answers a result. -/
theorem rle_ok_cases {r r' : RunStateOf v} {p : Pol} {o : Option (BitVec v)}
    (h : rle r p = .ok (o, r')) :
    (p.held = r.last ∧ r.count.toNat ≠ countLimit v ∧ o = none ∧
      r' = { r with count := r.count + 1 }) ∨
    (p.held ≠ r.last ∧ o = some r.count ∧ r' = ⟨p.held, 0⟩) := by
  unfold rle at h
  split at h
  · rename_i hp
    split at h
    · cases h
    · rename_i hc
      cases h
      exact .inl ⟨hp, hc, rfl, rfl⟩
  · rename_i hp
    cases h
    exact .inr ⟨hp, rfl, rfl⟩

/-- The only way RLE raises a fault. -/
theorem rle_error {r : RunStateOf v} {p : Pol} {c : FaultCause} (h : rle r p = .error c) :
    c = .cntOvf ∧ p.held = r.last ∧ r.count.toNat = countLimit v := by
  unfold rle at h
  split at h
  · rename_i hp
    split at h
    · rename_i hc
      cases h
      exact ⟨rfl, hp, hc⟩
    · cases h
  · cases h

@[simp] theorem smooth_fst (P : Config.Params n v) (h : SmHistOf n) (x : BitVec n) :
    (smooth P h x).1 = P.mean5 h.h0 h.h1 h.h2 h.h3 x := rfl

@[simp] theorem smooth_snd (P : Config.Params n v) (h : SmHistOf n) (x : BitVec n) :
    (smooth P h x).2 = ⟨h.h1, h.h2, h.h3, x⟩ := rfl

@[simp] theorem polarBy_fgt0 (y : Sample) : polarBy fgt0 y = polar y := rfl

/-- Everything the body of PUSH can do when it completes. -/
theorem pushBlock_ok_cases {P : Config.Params n v} {x : BitVec n} {b b' : BlockOf n v}
    (h : pushBlock P x b = .ok b') :
    b.chunkN ≠ P.maxChunk ∧ ∃ o r, rle b.rl (polarBy P.fgt0 (smooth P b.sm x).1) = .ok (o, r) ∧
      b' = { b with sm := (smooth P b.sm x).2, rl := r, rlbuf := b.rlbuf ++ o.toList,
                    chunkN := b.chunkN + 1 } := by
  unfold pushBlock at h
  split at h
  · cases h
  · rename_i hn
    refine ⟨hn, ?_⟩
    cases hr : rle b.rl (polarBy P.fgt0 (smooth P b.sm x).1) with
    | error c => simp only [hr, reduceCtorEq] at h
    | ok o =>
      simp only [hr, Except.ok.injEq] at h
      exact ⟨o.1, o.2, rfl, h.symm⟩

/-- The two ways the body of PUSH raises a fault, the chunk test first (R213). -/
theorem pushBlock_error_cases {P : Config.Params n v} {x : BitVec n} {b : BlockOf n v}
    {c : FaultCause} (h : pushBlock P x b = .error c) :
    (b.chunkN = P.maxChunk ∧ c = .chunkOvf) ∨
    (b.chunkN ≠ P.maxChunk ∧ rle b.rl (polarBy P.fgt0 (smooth P b.sm x).1) = .error c) := by
  unfold pushBlock at h
  split at h
  · rename_i hn
    cases h
    exact .inl ⟨hn, rfl⟩
  · rename_i hn
    cases hr : rle b.rl (polarBy P.fgt0 (smooth P b.sm x).1) with
    | ok o => simp only [hr, reduceCtorEq] at h
    | error c' =>
      simp only [hr, Except.error.injEq] at h
      exact .inr ⟨hn, by rw [h]⟩

/-- Everything PUSH can do: ignored, a fault raised, or completed. -/
theorem pushCommand_cases (P : Config.Params n v) (x : BitVec n) (b : BlockOf n v) :
    (b.fault ≠ 0#2 ∧ pushCommand P x b = (b, [])) ∨
    (b.fault = 0#2 ∧ ∃ c, pushBlock P x b = .error c ∧ pushCommand P x b = (raise c b, [])) ∨
    (b.fault = 0#2 ∧ ∃ t, pushBlock P x b = .ok t ∧ pushCommand P x b = (t, [])) := by
  unfold pushCommand
  by_cases hf : b.fault = 0#2
  · rw [unlessFaulted_of_unfaulted hf]
    cases pushBlock P x b with
    | error c => exact .inr (.inl ⟨hf, c, rfl, rfl⟩)
    | ok t => exact .inr (.inr ⟨hf, t, rfl, rfl⟩)
  · exact .inl ⟨hf, unlessFaulted_of_faulted hf⟩

/-- Everything ENDC can do: ignored, or completed. -/
theorem endcCommand_cases (b : BlockOf n v) :
    (b.fault ≠ 0#2 ∧ endcCommand b = (b, [])) ∨
    (b.fault = 0#2 ∧ endcCommand b = endcBlock b) := by
  by_cases hf : b.fault = 0#2
  · exact .inr ⟨hf, unlessFaulted_of_unfaulted hf⟩
  · exact .inl ⟨hf, unlessFaulted_of_faulted hf⟩

/-- Everything an illegal word can do (R195). -/
theorem illegalWord_cases (b : BlockOf n v) :
    (b.fault ≠ 0#2 ∧ illegalWord b = (b, [])) ∨
    (b.fault = 0#2 ∧ illegalWord b = (raise .illegalCmd b, [])) := by
  by_cases hf : b.fault = 0#2
  · exact .inr ⟨hf, unlessFaulted_of_unfaulted hf⟩
  · exact .inl ⟨hf, unlessFaulted_of_faulted hf⟩

/-- The machine runs a command as the block does under the parameters of this hardware, and
changes nothing around the block but the events. No command stops (R254). -/
theorem exec_eq_commit (i : Instr) (s : State) :
    exec i s = .next (commit (blockCommand hardware i s.blk) s) := by
  cases i <;> rfl

/-- The same of a word, legal or not. -/
theorem runWord_eq_commit (w : CmdWord) (s : State) :
    runWord w s = .next (commit (blockWord hardware w s.blk) s) := by
  unfold runWord blockWord
  cases decode w with
  | ok i => exact exec_eq_commit i s
  | error r => rfl

/-- No command stops: each answers a next state (R254). -/
theorem exec_next (i : Instr) (s : State) : ∃ t, exec i s = .next t := ⟨_, exec_eq_commit i s⟩

theorem runWord_next (w : CmdWord) (s : State) : ∃ t, runWord w s = .next t :=
  ⟨_, runWord_eq_commit w s⟩

/-- A word does what its command does, or what an illegal word does. -/
theorem blockWord_cases (P : Config.Params Config.sampleW v) (w : CmdWord)
    (b : BlockOf Config.sampleW v) :
    (∃ i, decode w = .ok i ∧ blockWord P w b = blockCommand P i b) ∨
    (∃ r, decode w = .error r ∧ blockWord P w b = illegalWord b) := by
  cases h : decode w with
  | ok i => exact .inl ⟨i, rfl, by simp [blockWord, h]⟩
  | error r => exact .inr ⟨r, rfl, by simp [blockWord, h]⟩

@[simp] theorem blockRun_nil (P : Config.Params Config.sampleW v) (b : BlockOf Config.sampleW v) :
    blockRun P [] b = (b, []) := rfl

theorem blockRun_cons (P : Config.Params Config.sampleW v) (w : CmdWord) (ws : List CmdWord)
    (b : BlockOf Config.sampleW v) :
    blockRun P (w :: ws) b = ((blockRun P ws (blockWord P w b).1).1,
      (blockWord P w b).2 ++ (blockRun P ws (blockWord P w b).1).2) := rfl

/-- Words accepted in two lots are accepted as in one. -/
theorem blockRun_append (P : Config.Params Config.sampleW v) (ws more : List CmdWord)
    (b : BlockOf Config.sampleW v) :
    blockRun P (ws ++ more) b = ((blockRun P more (blockRun P ws b).1).1,
      (blockRun P ws b).2 ++ (blockRun P more (blockRun P ws b).1).2) := by
  induction ws generalizing b with
  | nil => simp
  | cons w ws ih => simp [blockRun_cons, ih]

/-- Everything one input can do. -/
theorem accept_cases {p : PortInput} {s t : State} (h : accept p s = .next t) :
    (∃ w, p = .command w ∧ runWord w s = .next t) ∨
    (p = .resetPin ∧ t = resetBlock s) ∨
    (∃ w k u, p = .resetDuring w k ∧ runWord w s = .next u ∧ t = abandon k s u) := by
  cases p with
  | command w => exact .inl ⟨w, rfl, h⟩
  | resetPin => cases h; exact .inr (.inl ⟨rfl, rfl⟩)
  | resetDuring w k =>
    obtain ⟨u, hu⟩ := runWord_next w s
    simp only [accept, hu, Host.Outcome.next.injEq] at h
    exact .inr (.inr ⟨w, k, u, rfl, hu, h.symm⟩)

/-- A NaN result is a NaN, whatever the free value is (R104). -/
@[simp] theorem isNaN_nanResult (a b : Sample) : isNaN (nanResult a b) = true := by
  unfold nanResult
  split
  · assumption
  · decide

/-- A NaN is not strictly greater than zero (R111). -/
theorem fgt0_of_isNaN {y : Sample} (h : isNaN y = true) : fgt0 y = false := by
  simp [fgt0, h]

theorem isNaN_eq_false_of_isInf {a : Sample} (h : isInf a = true) : isNaN a = false := by
  simp only [isInf, Bool.and_eq_true, beq_iff_eq] at h
  simp [isNaN, h.2]

/-- A NaN operand gives a NaN sum (R104). -/
theorem isNaN_fadd32_of_isNaN {a b : Sample} (h : isNaN a = true ∨ isNaN b = true) :
    isNaN (fadd32 a b) = true := by
  unfold fadd32
  rw [if_pos (by simpa using h)]
  exact isNaN_nanResult a b

/-- An infinity plus anything is that infinity or a NaN, and a NaN only beside a NaN or the other
infinity (R104). -/
theorem fadd32_of_isInf_left {a b : Sample} (h : isInf a = true) :
    (fadd32 a b = a ∧ isNaN b = false ∧ (isInf b = true → signBit b = signBit a)) ∨
    (isNaN (fadd32 a b) = true ∧ (isNaN b = true ∨ isInf b = true ∧ signBit b ≠ signBit a)) := by
  have ha := isNaN_eq_false_of_isInf h
  cases hb : isNaN b with
  | true => exact .inr ⟨isNaN_fadd32_of_isNaN (.inr hb), .inl rfl⟩
  | false =>
    by_cases other : isInf b = true ∧ signBit a ≠ signBit b
    · refine .inr ⟨?_, .inr ⟨other.1, Ne.symm other.2⟩⟩
      simp [fadd32, ha, hb, h, other.1, other.2]
    · refine .inl ⟨?_, rfl, fun hi => ?_⟩
      · simp only [fadd32, ha, hb, h, Bool.or_self, Bool.false_eq_true, if_false, if_true]
        rw [if_neg (by simpa using other)]
      · by_contra hs
        exact other ⟨hi, Ne.symm hs⟩

end Sys2Proof.Machine
end

