-- ==== Sys2Proof/Laws/PerInstr.lean ====
section
/-! SUPPORT. Statements made for every command, one lemma for each constructor. -/

namespace Sys2Proof.Laws.TableRow

/-- The word of a command meets the mask and match of its row (R72). -/
def Statement (i : Instr) : Prop := i.row.accepts (encode i) = true

theorem nop : Statement .nop := by
  unfold Statement
  decide

theorem push (x : Sample) : Statement (.push x) := by
  have mask : (0x300000000#34 : CmdWord) = (0b11#2 ++ 0#32 : BitVec (2 + 32)) := by decide
  have value : (0x100000000#34 : CmdWord) = (0b01#2 ++ 0#32 : BitVec (2 + 32)) := by decide
  have meets : ((0b01#2 ++ x : BitVec (2 + 32)) &&& (0b11#2 ++ 0#32)) = 0b01#2 ++ 0#32 := by
    rw [BitVec.and_append, BitVec.and_zero]
    rfl
  simpa [Statement, Instr.row, rowPush, CmdRow.accepts, encode, mask, value] using meets

theorem endc : Statement .endc := by
  unfold Statement
  decide

theorem rst : Statement .rst := by
  unfold Statement
  decide

end Sys2Proof.Laws.TableRow
end

