-- ==== Sys2Proof/Laws/Stages.lean ====
section
/-! SUPPORT. The defining equations of the stage loops, one for each case, so that proofs by
induction need not unfold them, and what a field of the frame layout can hold. -/

namespace Sys2Proof.Machine

@[simp] theorem mergeLoop_nil (m acc : Nat) : mergeLoop m acc [] = ([], acc) := rfl

theorem mergeLoop_emit {m acc w : Nat} {ws : List Nat} (h : mergeFactor * (acc + w) > m) :
    mergeLoop m acc (w :: ws) =
      ((acc + w) :: (mergeLoop m 0 ws).1, (mergeLoop m 0 ws).2) := by
  simp [mergeLoop, h]

theorem mergeLoop_keep {m acc w : Nat} {ws : List Nat} (h : ¬ mergeFactor * (acc + w) > m) :
    mergeLoop m acc (w :: ws) = mergeLoop m (acc + w) ws := by
  simp [mergeLoop, h]

@[simp] theorem merge_nil (acc : Nat) : merge acc [] = ([], acc) := rfl

theorem merge_cons (acc w : Nat) (ws : List Nat) :
    merge acc (w :: ws) = mergeLoop (maxWidth (w :: ws)) acc (w :: ws) := rfl

@[simp] theorem biphLoop_nil (d : Nat) (pending : Bool) :
    biphLoop d pending [] = ([], pending) := by
  cases pending <;> rfl

@[simp] theorem biph_nil (pending : Bool) : biph pending [] = ([], pending) := rfl

theorem biph_cons (pending : Bool) (w : Nat) (ws : List Nat) :
    biph pending (w :: ws) = biphLoop (spread (w :: ws)) pending (w :: ws) := rfl

@[simp] theorem smoothAll_nil {n v : Nat} (P : Config.Params n v) (h : SmHistOf n) :
    smoothAll P h [] = ([], h) := rfl

theorem smoothAll_cons {n v : Nat} (P : Config.Params n v) (h : SmHistOf n) (x : BitVec n)
    (xs : List (BitVec n)) :
    smoothAll P h (x :: xs) = ((smooth P h x).1 :: (smoothAll P (smooth P h x).2 xs).1,
      (smoothAll P (smooth P h x).2 xs).2) := rfl

@[simp] theorem rleAll_nil {v : Nat} (r : RunStateOf v) : rleAll r [] = .ok ([], r) := rfl

/-- What RLE over a chunk does when its first symbol does not fault. -/
theorem rleAll_cons {v : Nat} {r : RunStateOf v} {p : Pol} {o : Option (BitVec v) × RunStateOf v}
    (ps : List Pol) (h : rle r p = .ok o) :
    rleAll r (p :: ps) = (rleAll o.2 ps).map fun rest => (o.1.toList ++ rest.1, rest.2) := by
  simp only [rleAll, h]
  cases rleAll o.2 ps <;> rfl

/-- A row of width 1 holds its one bit. -/
theorem field_of_width_one {B : List Bool} {r : LayoutRow} (h : r.width = 1) :
    field B r = (bitAt B r.offset).toNat := by
  simp [field, h, fld]

/-- A field of `w` bits is below `2^w`, so every number FDEC places fits (R172). -/
theorem fld_lt (B : List Bool) (o w : Nat) : fld B o w < 2 ^ w := by
  induction w with
  | zero => simp [fld]
  | succ w ih =>
    have : (bitAt B (o + w)).toNat * 2 ^ w ≤ 2 ^ w := by
      cases bitAt B (o + w) <;> simp
    simp only [fld, Nat.pow_succ]
    omega

/-- A field depends on its own bits alone. -/
theorem fld_congr {B C : List Bool} {o w : Nat}
    (h : ∀ i, o ≤ i → i < o + w → bitAt B i = bitAt C i) : fld B o w = fld C o w := by
  induction w with
  | zero => rfl
  | succ w ih =>
    simp only [fld]
    rw [ih fun i hl hu => h i hl (by omega), h (o + w) (by omega) (by omega)]

/-- The format indicator, bit by bit (R81). -/
theorem formatBits_eq (B : List Bool) :
    formatBits B = [bitAt B 27, bitAt B 43, bitAt B 59] := rfl

/-- The user data, bit by bit (R81). -/
theorem userBits_eq (B : List Bool) :
    userBits B =
      [bitAt B 4, bitAt B 5, bitAt B 6, bitAt B 7,
       bitAt B 12, bitAt B 13, bitAt B 14, bitAt B 15,
       bitAt B 20, bitAt B 21, bitAt B 22, bitAt B 23,
       bitAt B 28, bitAt B 29, bitAt B 30, bitAt B 31,
       bitAt B 36, bitAt B 37, bitAt B 38, bitAt B 39,
       bitAt B 44, bitAt B 45, bitAt B 46, bitAt B 47,
       bitAt B 52, bitAt B 53, bitAt B 54, bitAt B 55,
       bitAt B 60, bitAt B 61, bitAt B 62, bitAt B 63] := rfl

/-- Everything SYNC can do on one bit (R150). -/
theorem sync_cases (f : SyncState) (bit : Bool) :
    (syncMatch f.buf = false ∧ sync f bit = ({ f with buf := f.buf ++ [bit] }, none)) ∨
    (syncMatch f.buf = true ∧ f.buf.length ≠ frameLen ∧ sync f bit = (⟨[bit], 0, none⟩, none)) ∨
    (syncMatch f.buf = true ∧ f.buf.length = frameLen ∧
      sync f bit = (⟨[bit], (fdec f.buf).frame, rateAfter (fdec f.buf).frame f.prev f.rate⟩,
        some ⟨fdec f.buf, rateAfter (fdec f.buf).frame f.prev f.rate⟩)) := by
  unfold sync
  by_cases hm : syncMatch f.buf = true
  · by_cases hl : f.buf.length = frameLen <;> simp [hm, hl]
  · simp [hm]

@[simp] theorem syncAll_nil (f : SyncState) : syncAll f [] = (f, []) := rfl

theorem syncAll_cons (f : SyncState) (bit : Bool) (bits : List Bool) :
    syncAll f (bit :: bits) = ((syncAll (sync f bit).1 bits).1,
      (sync f bit).2.toList ++ (syncAll (sync f bit).1 bits).2) := rfl

/-- Feeding bits in two lots is feeding them in one. -/
theorem syncAll_append (f : SyncState) (bits more : List Bool) :
    syncAll f (bits ++ more) = ((syncAll (syncAll f bits).1 more).1,
      (syncAll f bits).2 ++ (syncAll (syncAll f bits).1 more).2) := by
  induction bits generalizing f with
  | nil => simp
  | cons bit bits ih => simp [syncAll_cons, ih]

end Sys2Proof.Machine
end

