-- ==== Sys2Proof/Laws/Step.lean ====
section
/-! SUPPORT. What a step can do, said once. -/

namespace Sys2Proof.Machine

/-- Everything a step can do: nothing when no input is there, else what its input does. -/
theorem step_cases {s t : State} (h : step s = .next t) :
    (s.port = [] ∧ t = s) ∨
    (∃ p rest, s.port = p :: rest ∧ accept p (taken p rest s) = .next t) := by
  unfold step nextInput at h
  split at h
  · rename_i hp
    cases h
    exact .inl ⟨hp, rfl⟩
  · rename_i p rest hp
    exact .inr ⟨p, rest, hp, h⟩

theorem step_of_port_cons {s : State} {p : PortInput} {rest : List PortInput}
    (h : s.port = p :: rest) : step s = accept p (taken p rest s) := by
  simp [step, nextInput, h]

end Sys2Proof.Machine
end

