-- ==== Sys2Proof/Tests/Slice0.lean ====
section
/-! SUPPORT. Tests whose expected values are the spec's own worked examples, and, for every
obligation with hypotheses, a witness that meets them together. -/

namespace Sys2Proof.Machine

/-- The state an outcome continues in. -/
def after : Host.Outcome State Fault Refusal → Option State
  | .next t => some t
  | _ => none

/-- A state with this block, and these inputs still to come. -/
def stateWith (b : Block) (inputs : List PortInput) : State := ⟨b, inputs, 0, []⟩

/-- What the block is after the first step on a word. -/
def blockAfter (b : Block) (w : CmdWord) : Option Block :=
  (after (step (stateWith b [.command w]))).map State.blk

/-! ## Which words are commands -/

theorem test_wellFormed_refuses_nop_with_payload : CmdWord.wellFormed 0x000000001#34 = false := by
  decide

theorem test_wellFormed_refuses_endc_with_payload :
    CmdWord.wellFormed 0x280000000#34 = false := by
  decide

theorem test_wellFormed_refuses_rst_with_payload : CmdWord.wellFormed 0x3FFFFFFFF#34 = false := by
  decide

theorem test_wellFormed_accepts_any_push_payload : CmdWord.wellFormed 0x1FFFFFFFF#34 = true := by
  decide

/-! ## Decoding, words from R72, R83 and 95_test_vectors.md section 3 -/

theorem test_decode_nop : decode 0b0000000000000000000000000000000000#34 = .ok .nop := by rfl

/-- `PUSH 1.0`. -/
theorem test_decode_push :
    decode 0b0100111111100000000000000000000000#34 = .ok (.push 0x3F800000#32) := by rfl

/-- `PUSH -16.0` = `0x1_C180_0000`. -/
theorem test_decode_push_negative : decode 0x1C1800000#34 = .ok (.push 0xC1800000#32) := by rfl

theorem test_decode_endc : decode 0b1000000000000000000000000000000000#34 = .ok .endc := by rfl

theorem test_decode_rst : decode 0b1100000000000000000000000000000000#34 = .ok .rst := by rfl

theorem test_decode_rejects_malformed_rst :
    decode 0x300000001#34 = .error (.rstWithPayload 1#32) := by rfl

/-- The numbering of spec/opcode_table.json, `nbits` in whole bytes. -/
theorem test_decodeTableWord_push :
    decodeTableWord 40 0x1BF800000 = some (.push 0xBF800000#32) := by rfl

theorem test_decodeTableWord_refuses_bit_34 : decodeTableWord 40 0x400000000 = none := by rfl

/-! ## One step each -/

/-- R190, on a block in mid chunk. -/
theorem test_nop_leaves_the_block :
    blockAfter { Block.reset with rlbuf := [0, 3], chunkN := 7 } 0x000000000#34 =
      some { Block.reset with rlbuf := [0, 3], chunkN := 7 } := by
  decide

/-- Vector V8.1. -/
theorem test_push_from_reset :
    (after (step (State.reset.withFetchWord 40 0x13F800000))).map State.blk =
      some { Block.reset with
        sm := ⟨0, 0, 0, 0x3F800000#32⟩, rl := ⟨.pos, 0⟩, rlbuf := [0], chunkN := 1 } := by
  decide

/-- Vector V8.5 with the counter at the limit of 32 bits: the window sum is -12, so the width is
emitted and no fault raised. -/
theorem test_push_ends_a_run_at_the_limit :
    blockAfter { Block.reset with
        sm := ⟨0x3F800000#32, 0x3F800000#32, 0x3F800000#32, 0x3F800000#32⟩
        rl := ⟨.pos, 0xFFFFFFFF#32⟩, rlbuf := [0], chunkN := 8 } 0x1C1800000#34 =
      some { Block.reset with
        sm := ⟨0x3F800000#32, 0x3F800000#32, 0x3F800000#32, 0xC1800000#32⟩
        rl := ⟨.neg, 0⟩, rlbuf := [0, 0xFFFFFFFF#32], chunkN := 9 } := by
  decide

/-- Program P1, the ENDC of chunk 2. -/
theorem test_endc_merges_and_decodes :
    blockAfter { Block.reset with
        rlbuf := [2, 2, 7, 2, 1], chunkN := 18, fs := ⟨[false, false, false], 0, none⟩ }
        0x200000000#34 =
      some { Block.reset with
        pmAcc := 1, bpPending := true
        fs := ⟨[false, false, false, true, false], 0, none⟩ } := by
  decide

/-- The 80 bits of vector V7.2, index 0 in the least significant place. -/
def frameV72 : List Bool := (List.range 80).map (Nat.testBit 0xBFFC1D293142A9B0C4D7)

/-- Vector V7.2 delivered by one more bit, a 0 from one long pulse. -/
theorem test_endc_delivers_the_frame :
    (after (step (stateWith { Block.reset with
        rlbuf := [4], chunkN := 5, fs := ⟨frameV72, 0, none⟩ } [.command 0x200000000#34]))).map
        (fun t => (t.eventWords, t.blk.fs)) =
      some ([0x001234ABCDB5318287#71], ⟨[false], 7, none⟩) := by
  decide

/-- R195, vector V8.3. -/
theorem test_illegal_word_sets_fault_1 :
    blockAfter Block.reset 0x200000001#34 = some { Block.reset with fault := 1 } := by
  decide

/-- Vector V8.3: a well-formed RST leaves the fault. -/
theorem test_rst_leaves_the_fault :
    blockAfter { Block.reset with fault := 1, rlbuf := [5], chunkN := 3 } 0x300000000#34 =
      some Block.reset := by
  decide

/-- Vector V8.3: a malformed RST is ignored. -/
theorem test_malformed_rst_is_ignored :
    blockAfter { Block.reset with fault := 1 } 0x300000001#34 =
      some { Block.reset with fault := 1 } := by
  decide

/-! ## Other values of the parameters -/

/-- The hardware with other values of `CNT_W` and `MAX_CHUNK`. -/
def withLimits (v maxChunk : Nat) : Config.Params Config.sampleW v :=
  ⟨mean5, fgt0, maxChunk⟩

/-- Vectors V8.4 and V8.5 after the samples that come before the fault: four or eight of 1.0. -/
def onesHeld (v samples : Nat) : BlockOf Config.sampleW v :=
  { (BlockOf.reset : BlockOf Config.sampleW v) with
  sm := ⟨0x3F800000#32, 0x3F800000#32, 0x3F800000#32, 0x3F800000#32⟩
  rl := ⟨.pos, BitVec.ofNat v (samples - 1)⟩, rlbuf := [0], chunkN := samples }

/-- Vector V8.4, `MAX_CHUNK` 4: the fifth PUSH. -/
theorem test_push_on_a_chunk_of_four :
    blockWord (withLimits 32 4) 0x13F800000#34 (onesHeld 32 4) =
      ({ onesHeld 32 4 with fault := 2 }, []) := by
  decide

/-- Vector V8.5, `CNT_W` 3: the ninth PUSH. -/
theorem test_push_on_a_counter_of_three_bits :
    blockWord (withLimits 3 4096) 0x13F800000#34 (onesHeld 3 8) =
      ({ onesHeld 3 8 with fault := 3 }, []) := by
  decide

/-- Vector V8.5, `CNT_W` 3: `PUSH -16.0` as the ninth emits the width 7. -/
theorem test_push_ends_a_run_of_three_bits :
    blockWord (withLimits 3 4096) 0x1C1800000#34 (onesHeld 3 8) =
      ({ onesHeld 3 8 with
          sm := ⟨0x3F800000#32, 0x3F800000#32, 0x3F800000#32, 0xC1800000#32⟩
          rl := ⟨.neg, 0⟩, rlbuf := [0, 7], chunkN := 9 }, []) := by
  decide

/-- Vector V8.6, `CNT_W` 3 and `MAX_CHUNK` 8: both conditions hold at the ninth PUSH. -/
theorem test_chunk_test_comes_first :
    blockWord (withLimits 3 8) 0x13F800000#34 (onesHeld 3 8) =
      ({ onesHeld 3 8 with fault := 2 }, []) := by
  decide

/-! ## Witnesses

One for each obligation with hypotheses; `_at_` and `_for_` name the clause or the boundary. -/

/-- In mid chunk, the last sample positive. -/
def midChunk : Block := { Block.reset with
  sm := ⟨0x3F800000#32, 0x3F800000#32, 0x3F800000#32, 0x3F800000#32⟩
  rl := ⟨.pos, 3⟩, rlbuf := [0], chunkN := 4 }

def one : Sample := 0x3F800000#32

/-- -16.0 -/
def minusSixteen : Sample := 0xC1800000#32

def nan : Sample := 0x7FC00000#32

theorem witness_StepRunsTheDecodedCommand :
    (stateWith midChunk [.command 0x13F800000#34]).port = .command 0x13F800000#34 :: [] ∧
      decode 0x13F800000#34 = .ok (.push one) := by
  exact ⟨rfl, rfl⟩

theorem witness_IllegalWordRaisesIllegalCmd :
    (stateWith midChunk [.command 0x300000001#34]).port = .command 0x300000001#34 :: [] ∧
      opField 0x300000001#34 = 0b11#2 ∧ payloadField 0x300000001#34 ≠ 0#32 := by
  exact ⟨rfl, by decide, by decide⟩

theorem witness_IdleBlockHoldsItsState : (stateWith midChunk []).port = [] := rfl

theorem witness_ResetPinLeavesWhatRstLeaves :
    (stateWith midChunk [.resetPin]).port = .resetPin :: [] := rfl

theorem witness_ResetPinAbandonsACommand :
    (stateWith midChunk [.resetDuring 0x200000000#34 1]).port =
      .resetDuring 0x200000000#34 1 :: [] := rfl

theorem witness_NopChangesNothing :
    (stateWith midChunk [.command 0x000000000#34]).port = .command 0x000000000#34 :: [] ∧
      (1#32 : BitVec 32) ≠ 0#32 := by
  exact ⟨rfl, by decide⟩

theorem witness_PushContinuesTheRun :
    (stateWith midChunk []).Unfaulted ∧ midChunk.chunkN ≠ Config.maxChunk ∧
      (polar (mean5 one one one one one)).held = midChunk.rl.last ∧
      midChunk.rl.count.toNat ≠ 2 ^ 32 - 1 := by
  decide

theorem witness_PushContinuesTheRun_at_the_last_count :
    let b := { midChunk with rl := ⟨.pos, 0xFFFFFFFE#32⟩, chunkN := 4095 }
    (stateWith b []).Unfaulted ∧ b.chunkN ≠ Config.maxChunk ∧
      (polar (mean5 b.sm.h0 b.sm.h1 b.sm.h2 b.sm.h3 one)).held = b.rl.last ∧
      b.rl.count.toNat ≠ 2 ^ 32 - 1 := by
  decide

theorem witness_PushEndsTheRun :
    (stateWith midChunk []).Unfaulted ∧ midChunk.chunkN ≠ Config.maxChunk ∧
      (polar (mean5 one one one one minusSixteen)).held ≠ midChunk.rl.last := by
  decide

theorem witness_FullChunkRaisesChunkOvf :
    let b := { midChunk with chunkN := 4096, rl := ⟨.pos, 0xFFFFFFFF#32⟩ }
    (stateWith b []).Unfaulted ∧ b.chunkN = 4096 := by
  decide

theorem witness_FullCounterRaisesCntOvf :
    let b := { midChunk with rl := ⟨.pos, 0xFFFFFFFF#32⟩ }
    (stateWith b []).Unfaulted ∧ b.chunkN ≠ 4096 ∧
      (polar (mean5 b.sm.h0 b.sm.h1 b.sm.h2 b.sm.h3 one)).held = b.rl.last ∧
      b.rl.count.toNat = 2 ^ 32 - 1 := by
  decide

theorem witness_EndcRunsStages4To6 : (stateWith midChunk []).Unfaulted := rfl

theorem witness_EndcOnAnEmptyChunkClearsOnlyTheCount :
    let b := { midChunk with rlbuf := [], pmAcc := 3 }
    (stateWith b []).Unfaulted ∧ b.rlbuf = [] := by
  decide

theorem witness_SecondEndcChangesNothing :
    ∃ t, exec .endc (stateWith midChunk []) = .next t := ⟨_, rfl⟩

theorem witness_RstResetsTheWholeBlock : (0x80000000#32 : BitVec 32) ≠ 0#32 := by decide

theorem witness_FaultedBlockIgnoresAllButReset_for_words :
    let s := stateWith { midChunk with fault := 2 } [.command 0x200000000#34]
    s.blk.fault ≠ 0#2 ∧ s.port = .command 0x200000000#34 :: [] := by
  decide

theorem witness_FaultedBlockIgnoresAllButReset_for_the_pin :
    let s := stateWith { midChunk with fault := 3 } [.resetPin]
    s.blk.fault ≠ 0#2 ∧ s.port = .resetPin :: [] := by
  decide

theorem witness_CommandsKeepTheirFrames :
    (∃ t, exec .nop (stateWith midChunk []) = .next t) ∧
    (∃ t, exec (.push one) (stateWith midChunk []) = .next t) ∧
    (∃ t, exec .endc (stateWith midChunk []) = .next t) ∧
    ∃ t, exec .rst (stateWith midChunk []) = .next t := by
  exact ⟨⟨_, rfl⟩, ⟨_, rfl⟩, ⟨_, rfl⟩, ⟨_, rfl⟩⟩

theorem witness_FaultsArePrecise :
    ∃ t, step (stateWith midChunk [.command 0x000000001#34]) = .next t ∧
      t.blk.fault ≠ midChunk.fault := by
  exact ⟨_, rfl, by decide⟩

theorem witness_FaultsArePrecise_for_a_reset :
    ∃ t, step (stateWith { midChunk with fault := 1 } [.resetPin]) = .next t ∧
      t.blk.fault ≠ 1#2 := by
  exact ⟨_, rfl, by decide⟩

theorem witness_OnlyEndcEmits :
    ∃ t, exec .endc (stateWith { Block.reset with
        rlbuf := [4], chunkN := 5, fs := ⟨frameV72, 0, none⟩ } []) = .next t ∧
      t.events ≠ [] := by
  exact ⟨_, rfl, by decide⟩

theorem witness_CommandDependsOnTheBlockAlone :
    (stateWith midChunk []).blk = (⟨midChunk, [.resetPin], 9, []⟩ : State).blk := rfl

theorem witness_ResetLeavesTheResetValues :
    (stateWith midChunk [.resetPin]).port = .resetPin :: [] := rfl

/-- A block in the middle of a stream, at the boundaries R40 allows. -/
def fullBlock : Block := { midChunk with
  pmAcc := 0x3FFFFFFF#33, fs := ⟨[true], 45, some 46⟩, chunkN := 4096 }

theorem fullBlock_inv : fullBlock.Inv where
  chunk := by decide
  fresh := by decide
  acc := by decide
  prev := by decide
  rate := by decide

theorem witness_EveryStepKeepsTheInvariants :
    (stateWith fullBlock [.command 0x200000000#34]).Inv ∧
      ∃ t, step (stateWith fullBlock [.command 0x200000000#34]) = .next t := by
  exact ⟨⟨fullBlock_inv, by decide⟩, ⟨_, rfl⟩⟩

theorem witness_PushLeavesASymbolHeld :
    ∃ t, exec (.push one) (stateWith midChunk []) = .next t ∧
      (stateWith midChunk []).Unfaulted ∧ t.Unfaulted := by
  exact ⟨_, rfl, by decide, by decide⟩

theorem witness_MeanOfPositivesIsPositive :
    fgt0 0x00000001#32 = true ∧ fgt0 one = true ∧ fgt0 0x7F800000#32 = true := by
  decide

theorem witness_MeanOfNonPositivesIsNonPositive :
    ∀ y ∈ [0x00000000#32, 0x80000000#32, minusSixteen, 0xFF7FFFFF#32, 0xFF800000#32],
      isNaN y = false ∧ fgt0 y = false := by
  simp only [List.forall_mem_cons, List.not_mem_nil, false_imp_iff, implies_true, and_true]
  decide

theorem witness_MeanOfSpecialValues_for_a_nan : ∃ y ∈ [one, one, nan, one, one], isNaN y = true := by
  exact ⟨nan, by decide, by decide⟩

theorem witness_MeanOfSpecialValues_for_both_infinities :
    0x7F800000#32 ∈ [one, 0x7F800000#32, one, 0xFF800000#32, one] ∧
      0xFF800000#32 ∈ [one, 0x7F800000#32, one, 0xFF800000#32, one] := by
  decide

theorem witness_MeanOfSpecialValues_for_one_infinity :
    0xFF800000#32 ∈ [0x7DFFFFFF#32, 0xFF800000#32, one, one, one] ∧
      ∀ y ∈ [0x7DFFFFFF#32, 0xFF800000#32, one, one, one], y = 0xFF800000#32 ∨ IsModerate y := by
  refine ⟨by decide, ?_⟩
  simp only [List.forall_mem_cons, List.not_mem_nil, false_imp_iff, implies_true, and_true]
  decide

/-- The window of log entry 17: the two largest negative values overflow before the infinity. -/
theorem witness_MeanOfSpecialValues_for_an_overflow_before_the_infinity :
    0x7F800000#32 ∈ [0xFF7FFFFF#32, 0xFF7FFFFF#32, 0x7F800000#32, 0#32, 0#32] ∧
      (∀ y ∈ [0xFF7FFFFF#32, 0xFF7FFFFF#32, 0x7F800000#32, 0#32, 0#32],
        isNaN y = false ∧ y ≠ negate 0x7F800000#32) ∧
      fadd32 0xFF7FFFFF#32 0xFF7FFFFF#32 = 0xFF800000#32 := by
  refine ⟨by decide, ?_, by decide⟩
  simp only [List.forall_mem_cons, List.not_mem_nil, false_imp_iff, implies_true, and_true]
  decide

/-- The same samples with the infinity first: no partial sum overflows. -/
theorem witness_MeanOfSpecialValues_for_an_infinity_before_the_overflow :
    (∀ y ∈ [0x7F800000#32, 0xFF7FFFFF#32, 0xFF7FFFFF#32, 0#32, 0#32],
        isNaN y = false ∧ y ≠ negate 0x7F800000#32) ∧
      mean5 0x7F800000#32 0xFF7FFFFF#32 0xFF7FFFFF#32 0#32 0#32 = 0x7F800000#32 := by
  refine ⟨?_, by decide⟩
  simp only [List.forall_mem_cons, List.not_mem_nil, false_imp_iff, implies_true, and_true]
  decide

theorem witness_MeanOfSpecialValues_for_zeros :
    ∀ y ∈ [0#32, 0x80000000#32, 0#32, 0x80000000#32, 0#32], isZero y = true := by
  simp only [List.forall_mem_cons, List.not_mem_nil, false_imp_iff, implies_true, and_true]
  decide

theorem witness_MeanHasTheSignOfTheExactSum_at_the_least_unit :
    IsMultiple 3 1 0x00000008#32 ∧ IsMultiple 3 (-(2 ^ 21)) 0x81000000#32 ∧
      IsMultiple 3 0 0x80000000#32 := by
  decide

theorem witness_MeanHasTheSignOfTheExactSum_at_the_largest_unit :
    IsMultiple 253 (2 ^ 21) 0x7E000000#32 ∧ IsMultiple 253 (-1) 0xF3800000#32 := by
  decide

theorem witness_NegatedWindowHasTheNegatedMean :
    isNaN (mean5 one one one one minusSixteen) = false ∧
      isZero (mean5 one one one one minusSixteen) = false := by
  decide

theorem witness_PolarityTurnsTwoSamplesLate :
    (3 ≤ 149 ∧ 149 ≤ 253) ∧ (0 : Int) < 1 ∧ IsMultiple 149 1 one := by
  decide

theorem witness_WindowHoldsTheLastFourSamples :
    ∃ t, execAll [.push one, .push minusSixteen, .push one, .push one] State.reset = .next t ∧
      t.Unfaulted := by
  exact ⟨_, rfl, by decide⟩

theorem witness_SilenceEmitsNoWidth :
    let b := { Block.reset with
      sm := ⟨0#32, 0x80000000#32, 0#32, 0#32⟩, rl := ⟨.neg, 0xFFFFFFFE#32⟩ }
    (stateWith b []).Unfaulted ∧ b.chunkN ≠ Config.maxChunk ∧
      (∀ y ∈ [b.sm.h0, b.sm.h1, b.sm.h2, b.sm.h3, 0x80000000#32], isZero y = true) ∧
      b.rl.last = .neg ∧ b.rl.count.toNat ≠ 2 ^ 32 - 1 := by
  refine ⟨by decide, by decide, ?_, by decide, by decide⟩
  simp only [List.forall_mem_cons, List.not_mem_nil, false_imp_iff, implies_true, and_true]
  decide

theorem witness_PolarityFollowsTheBitForm : isNaN 0xFFC00000#32 = true := by decide

/-- Vector V3.1. -/
theorem witness_RunLengthsAccountForEverySymbol :
    rleAll Block.reset.rl [.pos, .pos, .pos, .neg, .neg, .pos] = .ok ([0, 2, 1], ⟨.pos, 0⟩) := by
  rfl

theorem witness_RunOfEqualSymbolsIsCounted :
    (0 < 2 ^ 32 ∧ 2 ^ 32 ≤ 2 ^ 32) ∧ (0xFFFFFFFE#32).toNat + 1 < 2 ^ 32 := by
  decide

theorem witness_ChunkBoundariesDoNotChangeTheWidths :
    ∃ m t u, execAll ([one].map .push) State.reset = .next m ∧
      execAll ([one].map .push ++ [.endc] ++ [minusSixteen].map .push) State.reset = .next t ∧
      execAll (([one] ++ [minusSixteen]).map .push) State.reset = .next u ∧
      t.Unfaulted ∧ u.Unfaulted := by
  exact ⟨_, _, _, rfl, rfl, rfl, by decide, by decide⟩

/-- Vector V4.4: the accumulator left is exactly a quarter of the maximum. -/
theorem witness_MergeBoundsItsAccumulator :
    [8, 2] ≠ [] ∧ (∃ w ∈ [8, 2], w ≠ 0) ∧ merge 0 [8, 2] = ([8], 2) := by
  decide

theorem witness_MergedWidthsFitTheirRegisters :
    Block.Inv { fullBlock with rlbuf := [0xFFFFFFFF#32] } where
  chunk := by decide
  fresh := by decide
  acc := by decide
  prev := by decide
  rate := by decide

/-- Vector V5.4: a width of exactly half the spread is short. -/
theorem witness_BiphaseFollowsTheCaseTable :
    isLong 8 4 = false ∧ isLong 8 5 = true := by
  decide

theorem witness_SpreadClassifiesWidestAndNarrowest :
    [2, 6] ≠ [] ∧ (∀ w ∈ [2, 6], 1 ≤ w) ∧ ∀ v ∈ [7, 7], ∀ w ∈ [7, 7], v = w := by
  decide

/-- Vector V5.8, second part. -/
theorem witness_NarrowSpreadDecodesToZeros :
    1 ≤ 2 ∧ 5 < 3 * 2 ∧ ∀ w ∈ [2, 5], 2 ≤ w ∧ w ≤ 5 := by
  decide

theorem witness_SyncDecidesOnTheBufferBeforeTheBit_for_no_match :
    (⟨syncWord.take 15, 45, none⟩ : SyncState).prev.toNat ≤ 45 ∧
      syncMatch (syncWord.take 15) = false := by
  decide

theorem witness_SyncDecidesOnTheBufferBeforeTheBit_for_a_rejected_match :
    syncMatch syncWord = true ∧ syncWord.length ≠ 80 := by
  decide

theorem witness_SyncDecidesOnTheBufferBeforeTheBit_for_a_decrease :
    syncMatch frameV72 = true ∧ frameV72.length = 80 ∧
      (fdec frameV72).frame.toNat < (45#6).toNat := by
  decide

theorem witness_SyncDecidesOnTheBufferBeforeTheBit_for_a_repeat :
    syncMatch frameV72 = true ∧ frameV72.length = 80 ∧
      (7#6).toNat ≤ (fdec frameV72).frame.toNat := by
  decide

theorem witness_FrameIsDeliveredByTheNextBit : IsCleanFrame frameV72 := by decide

/-- Vector V7.2: 19:12:10:07. -/
theorem witness_TimeSurvivesDecodingAndRendering : HoldsTime frameV72 19 12 10 7 := by decide

theorem witness_TimeSurvivesDecodingAndRendering_at_the_bounds :
    HoldsTime ((List.range 80).map (Nat.testBit 0x309070907090309)) 39 79 79 39 := by
  decide

theorem witness_ChunkCommandsDoProcessChunk :
    State.reset.Unfaulted ∧ State.reset.blk.chunkN = 0 ∧ State.reset.blk.rlbuf = [] ∧
      [one, minusSixteen].length ≤ Config.maxChunk ∧
      (∃ r, processChunk State.reset.blk [one, minusSixteen] = .ok r) ∧
      State.reset.blk.rl.count.toNat + [one, minusSixteen].length < 2 ^ 32 := by
  exact ⟨by decide, by decide, by decide, by decide, ⟨_, rfl⟩, by decide⟩

theorem witness_ChunkCommandsDoProcessChunk_for_an_overflow :
    let b := { midChunk with rl := ⟨.pos, 0xFFFFFFFF#32⟩, rlbuf := [], chunkN := 0 }
    (stateWith b []).Unfaulted ∧ processChunk b [one] = .error .cntOvf := by
  exact ⟨by decide, rfl⟩

/-- Vector V7.2 with its user bits and sync word: two buffers that differ after bit 63 only. -/
theorem witness_FdecReadsTheLayout_for_equal_data_bits :
    ∀ i < 64, bitAt frameV72 i = bitAt (frameV72.take 64) i := by
  decide

theorem witness_FdecReadsTheLayout_for_equal_records :
    fdec frameV72 = fdec (frameV72.take 64) ∧
      ∀ r ∈ [rowFrameUnits, rowSecondUnits, rowMinuteUnits, rowHourUnits],
        field frameV72 r = field (frameV72.take 64) r := by
  decide

theorem witness_CommandsTakeTheirParameters_for_a_full_chunk :
    let b := onesHeld 3 8
    b.fault = 0#2 ∧ b.chunkN = (withLimits 3 8).maxChunk := by
  decide

theorem witness_CommandsTakeTheirParameters_for_a_full_counter :
    let b := onesHeld 3 8
    let P := withLimits 3 9
    b.fault = 0#2 ∧ P.fgt0 (P.mean5 b.sm.h0 b.sm.h1 b.sm.h2 b.sm.h3 one) = true ∧
      b.chunkN ≠ P.maxChunk ∧ Pol.pos.held = b.rl.last ∧ b.rl.count.toNat = 2 ^ 3 - 1 := by
  decide

/-- Another `MEAN5`, on Samples of one bit: the newest sample alone. -/
theorem witness_CommandsTakeTheirParameters_for_a_longer_run :
    let P : Config.Params 1 1 := ⟨fun _ _ _ _ x => x, fun y => y == 1#1, 2⟩
    let b : BlockOf 1 1 :=
      { (BlockOf.reset : BlockOf 1 1) with rl := ⟨.pos, 0⟩, rlbuf := [0], chunkN := 1 }
    b.fault = 0#2 ∧ P.fgt0 (P.mean5 b.sm.h0 b.sm.h1 b.sm.h2 b.sm.h3 1) = true ∧
      b.chunkN ≠ P.maxChunk ∧ Pol.pos.held = b.rl.last ∧ b.rl.count.toNat ≠ 2 ^ 1 - 1 := by
  decide

theorem witness_CommandsTakeTheirParameters_for_a_new_run :
    let b := onesHeld 3 8
    let P := withLimits 3 9
    b.fault = 0#2 ∧ P.fgt0 (P.mean5 b.sm.h0 b.sm.h1 b.sm.h2 b.sm.h3 minusSixteen) = false ∧
      b.chunkN ≠ P.maxChunk ∧ Pol.neg.held ≠ b.rl.last := by
  decide

theorem witness_CommandsTakeTheirParameters_for_the_largest_accumulator :
    let b : BlockOf 1 3 := { (BlockOf.reset : BlockOf 1 3) with pmAcc := 1, rlbuf := [7] }
    4 * b.pmAcc.toNat ≤ 2 ^ 3 - 1 ∧ merge b.pmAcc.toNat (b.rlbuf.map BitVec.toNat) = ([8], 0) := by
  decide

end Sys2Proof.Machine
end

section
/-! The commands under any values of the open parameters (spec/00_scope.md R6). -/

namespace Sys2Proof.Machine

variable {n v : Nat}

/-! ### What a symbol and a PUSH do, one equation for each case -/

theorem rle_at_limit {r : RunStateOf v} {p : Pol} (hp : p.held = r.last)
    (hc : r.count.toNat = countLimit v) : rle r p = .error .cntOvf := by
  simp [rle, hp, hc]

theorem rle_same {r : RunStateOf v} {p : Pol} (hp : p.held = r.last)
    (hc : r.count.toNat ≠ countLimit v) :
    rle r p = .ok (none, { r with count := r.count + 1 }) := by
  simp [rle, hp, hc]

theorem rle_change {r : RunStateOf v} {p : Pol} (hp : p.held ≠ r.last) :
    rle r p = .ok (some r.count, ⟨p.held, 0⟩) := by
  simp [rle, hp]

/-- Below its limit the counter does not wrap (R123). -/
theorem toNat_count_add_one {c : BitVec v} (h : c.toNat ≠ countLimit v) :
    (c + 1).toNat = c.toNat + 1 := by
  have fits : c.toNat + 1 < 2 ^ v := by
    have := c.isLt
    unfold countLimit at h
    omega
  simp [BitVec.toNat_add, Nat.mod_eq_of_lt fits]

theorem pushCommand_chunk_full {P : Config.Params n v} {b : BlockOf n v} (x : BitVec n)
    (hf : b.fault = 0#2) (hn : b.chunkN = P.maxChunk) :
    pushCommand P x b = (raise .chunkOvf b, []) := by
  simp [pushCommand, unlessFaulted_of_unfaulted hf, pushBlock, hn]

theorem pushCommand_of_rle_error {P : Config.Params n v} {b : BlockOf n v} {x : BitVec n}
    {c : FaultCause} (hf : b.fault = 0#2) (hn : b.chunkN ≠ P.maxChunk)
    (hr : rle b.rl (polarBy P.fgt0 (smooth P b.sm x).1) = .error c) :
    pushCommand P x b = (raise c b, []) := by
  simp only [pushCommand, unlessFaulted_of_unfaulted hf, pushBlock, if_neg hn, hr]

theorem pushCommand_of_rle_ok {P : Config.Params n v} {b : BlockOf n v} {x : BitVec n}
    {o : Option (BitVec v)} {r : RunStateOf v} (hf : b.fault = 0#2) (hn : b.chunkN ≠ P.maxChunk)
    (hr : rle b.rl (polarBy P.fgt0 (smooth P b.sm x).1) = .ok (o, r)) :
    pushCommand P x b = ({ b with
      sm := (smooth P b.sm x).2, rl := r, rlbuf := b.rlbuf ++ o.toList
      chunkN := b.chunkN + 1 }, []) := by
  simp only [pushCommand, unlessFaulted_of_unfaulted hf, pushBlock, if_neg hn, hr]

/-! ### What MERGE leaves, and how wide it makes a pulse -/

theorem foldl_max_le_iff {a L : Nat} {ws : List Nat} :
    ws.foldl max a ≤ L ↔ a ≤ L ∧ ∀ w ∈ ws, w ≤ L := by
  induction ws generalizing a with
  | nil => simp
  | cons w ws ih => simp [ih, and_assoc]

theorem maxWidth_le_iff {ws : List Nat} {L : Nat} : maxWidth ws ≤ L ↔ ∀ w ∈ ws, w ≤ L := by
  simp [maxWidth, foldl_max_le_iff]

/-- The loop keeps its accumulator within a quarter of any `L` from the maximum up: it emits
what passes a quarter of the maximum, and then starts from zero (R130). -/
theorem mergeLoop_acc_bound {m L acc : Nat} (hm : m ≤ L) (hacc : 4 * acc ≤ L) (ws : List Nat) :
    4 * (mergeLoop m acc ws).2 ≤ L := by
  induction ws generalizing acc with
  | nil => exact hacc
  | cons w ws ih =>
    by_cases emits : mergeFactor * (acc + w) > m
    · rw [mergeLoop_emit emits]
      exact ih (Nat.zero_le L)
    · rw [mergeLoop_keep emits]
      exact ih ((not_lt.1 emits).trans hm)

/-- A merged width is the accumulator before and one width, so from an accumulator within a
quarter of `L` and widths within `L` it is at most five quarters of `L`. -/
theorem mergeLoop_width_bound {m L acc : Nat} {ws : List Nat} (hm : m ≤ L) (hacc : 4 * acc ≤ L)
    (hws : ∀ w ∈ ws, w ≤ L) : ∀ x ∈ (mergeLoop m acc ws).1, 4 * x ≤ 5 * L := by
  induction ws generalizing acc with
  | nil => simp
  | cons w ws ih =>
    obtain ⟨hw, hrest⟩ := List.forall_mem_cons.1 hws
    by_cases emits : mergeFactor * (acc + w) > m
    · rw [mergeLoop_emit emits]
      exact List.forall_mem_cons.2 ⟨by omega, ih (Nat.zero_le _) hrest⟩
    · rw [mergeLoop_keep emits]
      exact ih ((not_lt.1 emits).trans hm) hrest

/-- R135 for any bound `L` of the widths: an accumulator within a quarter of it stays so. -/
theorem merge_acc_bound {L acc : Nat} {ws : List Nat} (hacc : 4 * acc ≤ L)
    (hws : ∀ w ∈ ws, w ≤ L) : 4 * (merge acc ws).2 ≤ L := by
  cases ws with
  | nil => exact hacc
  | cons w ws => exact mergeLoop_acc_bound (maxWidth_le_iff.2 hws) hacc _

theorem merge_width_bound {L acc : Nat} {ws : List Nat} (hacc : 4 * acc ≤ L)
    (hws : ∀ w ∈ ws, w ≤ L) : ∀ x ∈ (merge acc ws).1, 4 * x ≤ 5 * L := by
  cases ws with
  | nil => simp
  | cons w ws => exact mergeLoop_width_bound (maxWidth_le_iff.2 hws) hacc hws

/-- A run length in a register is at most the limit of the counter (R23). -/
theorem toNat_mem_le_countLimit {ws : List (BitVec v)} :
    ∀ w ∈ ws.map BitVec.toNat, w ≤ countLimit v := by
  simp only [List.forall_mem_map]
  exact fun w _ => Nat.le_sub_one_of_lt w.isLt

/-! ### ENDC on an accumulator within its quarter (R40 (c)) -/

theorem endcBlock_merged_width_lt {b : BlockOf n v} (h : 4 * b.pmAcc.toNat ≤ countLimit v) :
    ∀ m ∈ (merge b.pmAcc.toNat (b.rlbuf.map BitVec.toNat)).1, m < 2 ^ (v + 1) := by
  intro m hm
  have bound := merge_width_bound h toNat_mem_le_countLimit m hm
  have pos := Nat.two_pow_pos v
  simp only [countLimit] at bound
  omega

theorem endcBlock_acc_bound {b : BlockOf n v} (h : 4 * b.pmAcc.toNat ≤ countLimit v) :
    4 * (merge b.pmAcc.toNat (b.rlbuf.map BitVec.toNat)).2 ≤ countLimit v :=
  merge_acc_bound h toNat_mem_le_countLimit

/-- The register takes what MERGE leaves without loss (R135). -/
theorem endcBlock_pmAcc_toNat {b : BlockOf n v} (h : 4 * b.pmAcc.toNat ≤ countLimit v) :
    (endcBlock b).1.pmAcc.toNat = (merge b.pmAcc.toNat (b.rlbuf.map BitVec.toNat)).2 := by
  have bound := endcBlock_acc_bound h
  have pos := Nat.two_pow_pos v
  have fits : (merge b.pmAcc.toNat (b.rlbuf.map BitVec.toNat)).2 < 2 ^ (v + 1) := by
    simp only [countLimit] at bound
    omega
  exact Nat.mod_eq_of_lt fits

/-- Settles O60: the four outcomes of PUSH by the case of `pushCommand` and `rle` each is, the
bounds of ENDC from those of MERGE with `L = 2^CNT_W - 1`, and `exec` by its reading as a
commit. -/
theorem commandsTakeTheirParameters : Obligations.CommandsTakeTheirParameters := by
  refine ⟨?push, ?endc, exec_eq_commit, rfl, rfl, rfl, rfl, rfl⟩
  case push =>
    rintro n v P b x hf p rfl
    refine ⟨pushCommand_chunk_full x hf, fun hn hp hc => ?_, fun hn hp hc => ?_, fun hn hp => ?_⟩
    · exact pushCommand_of_rle_error hf hn (rle_at_limit hp hc)
    · refine ⟨b.rl.count + 1, toNat_count_add_one hc, ?_⟩
      simpa using pushCommand_of_rle_ok hf hn (rle_same hp hc)
    · exact pushCommand_of_rle_ok hf hn (rle_change hp)
  case endc =>
    intro n v b h
    refine ⟨endcBlock_merged_width_lt h, endcBlock_pmAcc_toNat h, ?_⟩
    rw [endcBlock_pmAcc_toNat h]
    exact endcBlock_acc_bound h

end Sys2Proof.Machine
end

section
/-! What a step does to the block and its events, and the run of a list of commands. -/

namespace Sys2Proof.Machine

/-- Everything a step can do to the block and to the events: hold them, run a word, reset, or
reset during a word, after `k` of its events (R240). -/
theorem step_blk_events_cases {s t : State} (h : step s = .next t) :
    (t.blk = s.blk ∧ t.events = s.events) ∨
    (∃ w, t.blk = (blockWord hardware w s.blk).1 ∧
      t.events = s.events ++ (blockWord hardware w s.blk).2) ∨
    (t.blk = Block.reset ∧ t.events = s.events) ∨
    (∃ w k, t.blk = Block.reset ∧
      t.events = s.events ++ (blockWord hardware w s.blk).2.take k) := by
  obtain ⟨-, rfl⟩ | ⟨p, rest, -, ha⟩ := step_cases h
  · exact .inl ⟨rfl, rfl⟩
  obtain ⟨w, -, hw⟩ | ⟨-, rfl⟩ | ⟨w, k, u, -, hw, rfl⟩ := accept_cases ha
  · rw [runWord_eq_commit] at hw
    cases hw
    exact .inr (.inl ⟨w, rfl, rfl⟩)
  · exact .inr (.inr (.inl ⟨rfl, rfl⟩))
  · rw [runWord_eq_commit] at hw
    cases hw
    exact .inr (.inr (.inr ⟨w, k, rfl, by simp⟩))

/-- Settles O5: the step accepts the word, and an accepted word runs what it decodes to. -/
theorem stepRunsTheDecodedCommand : Obligations.StepRunsTheDecodedCommand := by
  intro s w rest i hport hdecode
  calc step s = runWord w (taken (.command w) rest s) := step_of_port_cons hport
    _ = exec i (taken (.command w) rest s) := by simp only [runWord, hdecode]

theorem execAll_cons_next {i : Instr} {is : List Instr} {s t : State}
    (h : execAll (i :: is) s = .next t) :
    ∃ u, exec i s = .next u ∧ execAll is u = .next t := by
  obtain ⟨u, hu⟩ := exec_next i s
  simp only [execAll, hu] at h
  exact ⟨u, hu, h⟩

/-! ### PUSH without a fault -/

/-- No cause has the code 0 of "no fault" (R211). -/
theorem FaultCause.code_ne_zero (c : FaultCause) : c.code ≠ 0#2 := by
  cases c <;> decide

/-- A PUSH that leaves no fault found none and completed. -/
theorem exec_push_completes {s t : State} {x : Sample} (h : exec (.push x) s = .next t)
    (ht : t.Unfaulted) : s.Unfaulted ∧ pushBlock hardware x s.blk = .ok t.blk := by
  have hblk : t.blk = (pushCommand hardware x s.blk).1 := by
    rw [exec_eq_commit] at h
    cases h
    rfl
  have hfault : (pushCommand hardware x s.blk).1.fault = 0#2 := hblk ▸ ht
  obtain ⟨hf, hp⟩ | ⟨-, c, -, hp⟩ | ⟨hf, b, hb, hp⟩ := pushCommand_cases hardware x s.blk
  · exact absurd (by simpa [hp] using hfault) hf
  · exact absurd (by simpa [hp] using hfault) c.code_ne_zero
  · exact ⟨hf, by rw [hblk, hp, hb]⟩

theorem Pol.held_ne_zero (p : Pol) : p.held ≠ .zero := by
  cases p <;> decide

/-- After RLE the held value is the symbol just taken, whether it was equal or new (R120). -/
theorem rle_ok_last {v : Nat} {r r' : RunStateOf v} {p : Pol} {o : Option (BitVec v)}
    (h : rle r p = .ok (o, r')) : r'.last = p.held := by
  obtain ⟨hp, -, -, rfl⟩ | ⟨-, -, rfl⟩ := rle_ok_cases h
  · exact hp.symm
  · rfl

/-- After the body of PUSH a symbol is held (R22, R112). -/
theorem pushBlock_ok_last_ne_zero {n v : Nat} {P : Config.Params n v} {x : BitVec n}
    {b b' : BlockOf n v} (h : pushBlock P x b = .ok b') : b'.rl.last ≠ .zero := by
  obtain ⟨-, o, r, hr, rfl⟩ := pushBlock_ok_cases h
  exact rle_ok_last hr ▸ Pol.held_ne_zero _

/-- Settles O28: a PUSH without a fault is its body, after which the last symbol is held. -/
theorem pushLeavesASymbolHeld : Obligations.PushLeavesASymbolHeld := by
  intro s t x h _ ht
  obtain ⟨-, hpush⟩ := exec_push_completes h ht
  obtain ⟨-, o, r, -, hblk⟩ := pushBlock_ok_cases hpush
  exact ⟨pushBlock_ok_last_ne_zero hpush, by rw [hblk]⟩

/-- PUSH commands that end without a fault move the window as stage 1 over the whole chunk. -/
theorem execAll_push_window {xs : List Sample} {s t : State}
    (h : execAll (xs.map .push) s = .next t) (ht : t.Unfaulted) :
    s.Unfaulted ∧ t.blk.sm = (smoothAll hardware s.blk.sm xs).2 := by
  induction xs generalizing s with
  | nil =>
    cases h
    exact ⟨ht, rfl⟩
  | cons x xs ih =>
    obtain ⟨u, hx, hxs⟩ := execAll_cons_next h
    obtain ⟨hu, hwindow⟩ := ih hxs
    obtain ⟨hs, hpush⟩ := exec_push_completes hx hu
    obtain ⟨-, o, r, -, hblk⟩ := pushBlock_ok_cases hpush
    refine ⟨hs, ?_⟩
    rw [hwindow, hblk, smoothAll_cons]

/-- Settles O35: four samples shift the whole old window out. -/
theorem windowHoldsTheLastFourSamples : Obligations.WindowHoldsTheLastFourSamples := by
  intro a b c d s t h ht
  have hrun : execAll ([a, b, c, d].map .push) s = .next t := h
  simpa [smoothAll_cons] using (execAll_push_window hrun ht).2

end Sys2Proof.Machine
end

section
/-! The reset values (spec/10_state.md R39) and the invariants of R40. -/

namespace Sys2Proof.Machine

theorem reset_hasResetValues : Block.HasResetValues Block.reset := by decide

/-- Settles O25: each kind of reset leaves `Block.reset`. -/
theorem resetLeavesTheResetValues : Obligations.ResetLeavesTheResetValues := by
  refine ⟨reset_hasResetValues, rfl, fun s => ?_, fun s rest hport => ?_⟩
  · exact ⟨_, exec_eq_commit .rst s, reset_hasResetValues⟩
  · exact ⟨_, step_of_port_cons hport, reset_hasResetValues⟩

theorem reset_inv : Block.Inv Block.reset where
  chunk := by decide
  fresh := fun _ => rfl
  acc := by decide
  prev := by decide
  rate := by simp [Block.RateBounded]

/-- Settles O26: the reset block meets R40, and no event has been reported. -/
theorem resetMeetsTheInvariants : Obligations.ResetMeetsTheInvariants where
  blk := reset_inv
  events := by simp [State.reset]

/-! ### The ranges of decoded numbers (R172) -/

/-- A number of `u` units bits and `t` tens bits is exact in a field that holds its largest
value. -/
theorem toNat_ofNat_pd_le {w : Nat} {units tens : LayoutRow} (B : List Bool)
    (hw : 2 ^ units.width - 1 + tensWeight * (2 ^ tens.width - 1) < 2 ^ w) :
    (BitVec.ofNat w (pd B units tens)).toNat ≤
      2 ^ units.width - 1 + tensWeight * (2 ^ tens.width - 1) := by
  have hu : field B units ≤ 2 ^ units.width - 1 := Nat.le_sub_one_of_lt (fld_lt B _ _)
  have ht : field B tens ≤ 2 ^ tens.width - 1 := Nat.le_sub_one_of_lt (fld_lt B _ _)
  have hpd : pd B units tens ≤ 2 ^ units.width - 1 + tensWeight * (2 ^ tens.width - 1) :=
    Nat.add_le_add hu (Nat.mul_le_mul_left _ ht)
  rw [BitVec.toNat_ofNat, Nat.mod_eq_of_lt (hpd.trans_lt hw)]
  exact hpd

theorem fdec_frame_le (B : List Bool) : (fdec B).frame.toNat ≤ 45 :=
  toNat_ofNat_pd_le B (by decide)

theorem fdec_second_le (B : List Bool) : (fdec B).second.toNat ≤ 85 :=
  toNat_ofNat_pd_le B (by decide)

theorem fdec_minute_le (B : List Bool) : (fdec B).minute.toNat ≤ 85 :=
  toNat_ofNat_pd_le B (by decide)

theorem fdec_hour_le (B : List Bool) : (fdec B).hour.toNat ≤ 45 :=
  toNat_ofNat_pd_le B (by decide)

/-! ### SYNC keeps R40 (d) and (e), and reports events within R76 -/

/-- R40 (d) and (e) on the state of stage 6. -/
def SyncState.Bounded (f : SyncState) : Prop :=
  f.prev.toNat ≤ 45 ∧ ∀ r ∈ f.rate, 2 ≤ r.toNat ∧ r.toNat ≤ 46

theorem Block.Inv.fs_bounded {b : Block} (h : b.Inv) : b.fs.Bounded := ⟨h.prev, h.rate⟩

/-- A decrease ends at a `fs_prev` of at least 1, so the new estimate is at least 2 (R155). -/
theorem rateAfter_bounded {frame prev : BitVec Config.frameW}
    {rate : Option (BitVec Config.rateW)} (hprev : prev.toNat ≤ 45)
    (hrate : ∀ r ∈ rate, 2 ≤ r.toNat ∧ r.toNat ≤ 46) :
    ∀ r ∈ rateAfter frame prev rate, 2 ≤ r.toNat ∧ r.toNat ≤ 46 := by
  unfold rateAfter
  split
  · rename_i hlt
    have hsucc : (prev + rateStep).toNat = prev.toNat + 1 :=
      Nat.mod_eq_of_lt (show prev.toNat + 1 < 64 by omega)
    have hpos : frame.toNat < prev.toNat := BitVec.lt_def.1 hlt
    rintro r ⟨⟩
    omega
  · exact hrate

/-- One bit keeps the bounds, and an event it reports is in range: the only new numbers are
those FDEC decodes and the estimate. -/
theorem sync_bounded {f : SyncState} (hf : f.Bounded) (bit : Bool) :
    (sync f bit).1.Bounded ∧ ∀ e ∈ (sync f bit).2, e.InRange := by
  obtain ⟨hprev, hrate⟩ := hf
  obtain ⟨-, hs⟩ | ⟨-, -, hs⟩ | ⟨-, -, hs⟩ := sync_cases f bit
  · rw [hs]
    exact ⟨⟨hprev, hrate⟩, by simp⟩
  · simp [hs, SyncState.Bounded]
  · have hnew := rateAfter_bounded (frame := (fdec f.buf).frame) hprev hrate
    rw [hs]
    refine ⟨⟨fdec_frame_le f.buf, hnew⟩, ?_⟩
    rintro e ⟨⟩
    exact ⟨fdec_frame_le _, fdec_second_le _, fdec_minute_le _, fdec_hour_le _, hnew⟩

theorem syncAll_bounded {f : SyncState} (hf : f.Bounded) (bits : List Bool) :
    (syncAll f bits).1.Bounded ∧ ∀ e ∈ (syncAll f bits).2, e.InRange := by
  induction bits generalizing f with
  | nil => exact ⟨hf, by simp⟩
  | cons bit bits ih =>
    obtain ⟨hone, hevent⟩ := sync_bounded hf bit
    obtain ⟨hrest, hevents⟩ := ih hone
    rw [syncAll_cons]
    refine ⟨hrest, fun e he => ?_⟩
    obtain h | h := List.mem_append.1 he
    · exact hevent e (by simpa using h)
    · exact hevents e h

/-! ### Every command keeps R40 -/

/-- What a command may leave: a block that meets R40, and events within R76. -/
def ResultInv (r : Block × List Event) : Prop := Block.Inv r.1 ∧ ∀ e ∈ r.2, e.InRange

theorem resultInv_silent {b : Block} (h : b.Inv) : ResultInv (b, []) := ⟨h, by simp⟩

/-- Recording a fault keeps the invariants: R40 does not speak of `fault`. -/
theorem raise_inv {b : Block} (h : b.Inv) (c : FaultCause) : Block.Inv (raise c b) where
  chunk := h.chunk
  fresh := fun hlast => by
    have hb := h.fresh hlast
    rw [raise, hb]
  acc := h.acc
  prev := h.prev
  rate := h.rate

/-- RLE emits at most one width, and the chunk test leaves room for one more PUSH. -/
theorem pushBlock_inv {b b' : Block} {x : Sample} (h : b.Inv)
    (hpush : pushBlock hardware x b = .ok b') : b'.Inv := by
  have hheld := pushBlock_ok_last_ne_zero hpush
  obtain ⟨hroom, o, r, -, rfl⟩ := pushBlock_ok_cases hpush
  refine ⟨?chunk, fun hlast => absurd hlast hheld, h.acc, h.prev, h.rate⟩
  obtain ⟨hmax, hlen⟩ := h.chunk
  have hroom : b.chunkN < Config.maxChunk := lt_of_le_of_ne hmax hroom
  have ho : o.toList.length ≤ 1 := by cases o <;> simp
  exact ⟨hroom, by simpa using Nat.add_le_add hlen ho⟩

/-- R40 (c) in the form that MERGE keeps. -/
theorem Block.Inv.four_mul_acc_le {b : Block} (h : b.Inv) :
    4 * b.pmAcc.toNat ≤ countLimit Config.cntW := by
  have hacc := h.acc
  simp only [countLimit]
  omega

/-- A chunk with no run length leaves ENDC only `chunk_n` to clear (R133, R143, R193). -/
theorem endcBlock_of_rlbuf_nil {n v : Nat} {b : BlockOf n v} (h : b.rlbuf = []) :
    endcBlock b = ({ b with chunkN := 0 }, []) := by
  simp [endcBlock, h]

/-- ENDC keeps R40, and its events are in range. A fresh block stays as it is. -/
theorem endcBlock_inv {b : Block} (h : b.Inv) : ResultInv (endcBlock b) := by
  obtain ⟨⟨hprev, hrate⟩, hevents⟩ := syncAll_bounded h.fs_bounded
    (biph b.bpPending (merge b.pmAcc.toNat (b.rlbuf.map BitVec.toNat)).1).1
  refine ⟨⟨⟨Nat.zero_le _, Nat.le_refl _⟩, fun hlast => ?fresh, ?acc, hprev, hrate⟩, hevents⟩
  case fresh =>
    have hb := h.fresh hlast
    have hempty : b.rlbuf = [] := by rw [hb]; rfl
    rw [endcBlock_of_rlbuf_nil hempty, hb]
    rfl
  case acc =>
    have hbound := endcBlock_acc_bound h.four_mul_acc_le
    rw [Block.AccBounded, endcBlock_pmAcc_toNat h.four_mul_acc_le]
    exact (Nat.le_div_iff_mul_le (by decide)).2 (by rwa [Nat.mul_comm])

theorem blockCommand_inv {b : Block} (h : b.Inv) (i : Instr) :
    ResultInv (blockCommand hardware i b) := by
  cases i with
  | nop => exact resultInv_silent h
  | push x =>
    rw [blockCommand]
    obtain ⟨-, hp⟩ | ⟨-, c, -, hp⟩ | ⟨-, b', hb, hp⟩ := pushCommand_cases hardware x b <;> rw [hp]
    · exact resultInv_silent h
    · exact resultInv_silent (raise_inv h c)
    · exact resultInv_silent (pushBlock_inv h hb)
  | endc =>
    rw [blockCommand]
    obtain ⟨-, he⟩ | ⟨-, he⟩ := endcCommand_cases b <;> rw [he]
    · exact resultInv_silent h
    · exact endcBlock_inv h
  | rst => exact resultInv_silent reset_inv

theorem illegalWord_inv {b : Block} (h : b.Inv) : ResultInv (illegalWord b) := by
  obtain ⟨-, hw⟩ | ⟨-, hw⟩ := illegalWord_cases b <;> rw [hw]
  · exact resultInv_silent h
  · exact resultInv_silent (raise_inv h _)

theorem blockWord_inv {b : Block} (h : b.Inv) (w : CmdWord) :
    ResultInv (blockWord hardware w b) := by
  obtain ⟨i, -, hw⟩ | ⟨r, -, hw⟩ := blockWord_cases hardware w b <;> rw [hw]
  · exact blockCommand_inv h i
  · exact illegalWord_inv h

/-- Settles O27: of what a step can do to the block and the events, a word keeps the
invariants, and a reset restores them; a cut word reports a part of its events. -/
theorem everyStepKeepsTheInvariants : Obligations.EveryStepKeepsTheInvariants := by
  intro s t ⟨hinv, hold⟩ hstep
  obtain ⟨hb, he⟩ | ⟨w, hb, he⟩ | ⟨hb, he⟩ | ⟨w, k, hb, he⟩ := step_blk_events_cases hstep
  · exact ⟨hb ▸ hinv, he ▸ hold⟩
  · obtain ⟨hblk, hnew⟩ := blockWord_inv hinv w
    exact ⟨hb ▸ hblk, he ▸ List.forall_mem_append.2 ⟨hold, hnew⟩⟩
  · exact ⟨hb ▸ reset_inv, he ▸ hold⟩
  · obtain ⟨-, hnew⟩ := blockWord_inv hinv w
    have hcut := fun e he => hnew e (List.mem_of_mem_take (i := k) he)
    exact ⟨hb ▸ reset_inv, he ▸ List.forall_mem_append.2 ⟨hold, hcut⟩⟩

end Sys2Proof.Machine
end

section
/-! The finite realisation of the bit buffer (spec/10_state.md R37) against the unbounded one. -/

namespace Sys2Proof.Machine

@[simp] theorem bitAt_nil (i : Nat) : bitAt [] i = false := rfl
@[simp] theorem bitAt_cons_zero (bit : Bool) (B : List Bool) : bitAt (bit :: B) 0 = bit := rfl
@[simp] theorem bitAt_cons_succ (bit : Bool) (B : List Bool) (i : Nat) :
    bitAt (bit :: B) (i + 1) = bitAt B i := rfl

theorem bitAt_of_length_le {B : List Bool} {i : Nat} (h : B.length ≤ i) : bitAt B i = false :=
  List.getD_eq_default B false h

theorem bitAt_append_left {B C : List Bool} {i : Nat} (h : i < B.length) :
    bitAt (B ++ C) i = bitAt B i :=
  List.getD_append B C false i h

theorem bitAt_append_right {B C : List Bool} {i : Nat} (h : B.length ≤ i) :
    bitAt (B ++ C) i = bitAt C (i - B.length) :=
  List.getD_append_right B C false i h

/-- Two lists of one length are equal when they read the same bits. -/
theorem eq_of_bitAt {B C : List Bool} (hlen : B.length = C.length)
    (h : ∀ i < B.length, bitAt B i = bitAt C i) : B = C := by
  refine List.ext_getElem hlen fun i hB hC => ?_
  simpa [bitAt, hB, hC] using h i hB

/-- `fs_bits` holds the first 80 bits of `buf`, and zeros past its end. -/
def HoldsHead (bits : BitVec 80) (buf : List Bool) : Prop :=
  ∀ i < 80, bits.getLsbD i = bitAt buf i

/-- `fs_tail` holds the last 16 bits of `buf`, the newest in place 0, and zeros before its
start. -/
def HoldsTail (tail : BitVec 16) (buf : List Bool) : Prop :=
  ∀ i < 16, tail.getLsbD i = bitAt buf.reverse i

/-- The finite realisation `h` stands for the state `f` of stage 6 (R37). -/
structure FiniteSync.StandsFor (h : FiniteSync) (f : SyncState) : Prop where
  head : HoldsHead h.bits f.buf
  len : h.len = min f.buf.length 81
  tail : HoldsTail h.tail f.buf
  prev : h.prev = f.prev
  rate : h.rate = f.rate

/-! ### One more bit -/

/-- The new bit goes to the first free place, which holds a zero. -/
theorem HoldsHead.append_set {bits : BitVec 80} {buf : List Bool} (h : HoldsHead bits buf)
    (bit : Bool) :
    HoldsHead (bits ||| ((BitVec.ofBool bit).setWidth 80 <<< buf.length)) (buf ++ [bit]) := by
  intro i hi
  rw [BitVec.getLsbD_or, h i hi]
  obtain hlt | rfl | hgt := lt_trichotomy i buf.length
  · simp [bitAt_append_left hlt, hlt]
  · simp [bitAt_append_right, bitAt_of_length_le, hi]
  · have hone : 1 ≤ i - buf.length := by omega
    rw [bitAt_of_length_le hgt.le, bitAt_of_length_le (by simpa using hgt)]
    simp [BitVec.getLsbD_of_ge _ _ hone]

/-- A bit past the first 80 is not kept. -/
theorem HoldsHead.append_full {bits : BitVec 80} {buf : List Bool} (h : HoldsHead bits buf)
    (hlen : 80 ≤ buf.length) (bit : Bool) : HoldsHead bits (buf ++ [bit]) := fun i hi => by
  rw [h i hi, bitAt_append_left (by omega)]

/-- The tail shifts by one place, and the new bit is its newest. -/
theorem HoldsTail.append {tail : BitVec 16} {buf : List Bool} (h : HoldsTail tail buf)
    (bit : Bool) : HoldsTail (tail <<< 1 ||| (BitVec.ofBool bit).setWidth 16) (buf ++ [bit]) := by
  intro i hi
  cases i with
  | zero => simp
  | succ i =>
    have hi' : i < 16 := by omega
    simpa [hi, hi'] using h i hi'

theorem FiniteSync.StandsFor.append {h : FiniteSync} {f : SyncState} (r : h.StandsFor f)
    (bit : Bool) : (h.append bit).StandsFor { f with buf := f.buf ++ [bit] } := by
  obtain ⟨hhead, hlen, htail, hprev, hrate⟩ := r
  refine ⟨?head, ?len, htail.append bit, hprev, hrate⟩
  case head =>
    by_cases hroom : f.buf.length < 80
    · have hcount : h.len = f.buf.length := by omega
      simpa only [FiniteSync.append, hcount, if_pos hroom] using hhead.append_set bit
    · have hfull : ¬ h.len < 80 := by omega
      simpa only [FiniteSync.append, if_neg hfull] using hhead.append_full (by omega) bit
  case len =>
    simp only [FiniteSync.append, List.length_append, List.length_singleton]
    omega

/-- A cleared realisation stands for the empty buffer. -/
theorem FiniteSync.clear_standsFor (h : FiniteSync) :
    h.clear.StandsFor ⟨[], h.prev, h.rate⟩ where
  head := fun i _ => by simp [FiniteSync.clear]
  len := rfl
  tail := fun i _ => by simp [FiniteSync.clear]
  prev := rfl
  rate := rfl

/-! ### What SYNC reads of the buffer -/

theorem syncTail_holdsTail : HoldsTail syncTail syncWord := by
  unfold HoldsTail
  decide

/-- Of 16 bits or more, the tail is the sync word exactly when the last 16 bits are (R151). -/
theorem HoldsTail.eq_syncTail_iff {tail : BitVec 16} {buf : List Bool} (h : HoldsTail tail buf)
    (hlen : 16 ≤ buf.length) : tail = syncTail ↔ buf.drop (buf.length - 16) = syncWord := by
  have hlast : HoldsTail tail (buf.drop (buf.length - 16)) := fun i hi => by
    rw [h i hi, ← List.take_reverse]
    simp [bitAt, hi]
  have hcount : (buf.drop (buf.length - 16)).length = 16 := by simp; omega
  generalize buf.drop (buf.length - 16) = last at hlast hcount ⊢
  constructor
  · rintro rfl
    refine List.reverse_injective (eq_of_bitAt (by simp [hcount, syncWord]) fun i hi => ?_)
    have hi : i < 16 := by simpa [hcount] using hi
    rw [← hlast i hi, syncTail_holdsTail i hi]
  · rintro rfl
    exact BitVec.eq_of_getLsbD_eq fun i hi => (hlast i hi).trans (syncTail_holdsTail i hi).symm

theorem syncMatch_iff (buf : List Bool) :
    syncMatch buf = true ↔ 16 ≤ buf.length ∧ buf.drop (buf.length - 16) = syncWord := by
  simp [syncMatch]

/-- A length that saturates at 81 is 16 or more exactly when the true length is. -/
theorem FiniteSync.StandsFor.match_iff {h : FiniteSync} {f : SyncState} (r : h.StandsFor f) :
    (16 ≤ h.len ∧ h.tail = syncTail) ↔ syncMatch f.buf = true := by
  have hlen : 16 ≤ h.len ↔ 16 ≤ f.buf.length := by rw [r.len]; omega
  rw [syncMatch_iff, hlen]
  exact and_congr_right r.tail.eq_syncTail_iff

/-- Saturation at 81 leaves 80 to the buffers of exactly 80 bits. -/
theorem FiniteSync.StandsFor.len_eq_frameLen_iff {h : FiniteSync} {f : SyncState}
    (r : h.StandsFor f) : h.len = frameLen ↔ f.buf.length = frameLen := by
  rw [r.len, frameLen]
  omega

/-- FDEC is given the very buffer when that has 80 bits. -/
theorem FiniteSync.StandsFor.frameBits_eq {h : FiniteSync} {f : SyncState} (r : h.StandsFor f)
    (hlen : f.buf.length = frameLen) : h.frameBits = f.buf := by
  have hcount : h.frameBits.length = 80 := List.length_ofFn
  refine eq_of_bitAt (hcount.trans hlen.symm) fun i hi => ?_
  have hi : i < 80 := hcount ▸ hi
  rw [← r.head i hi, bitAt, List.getD_eq_getElem _ _ (hcount.symm ▸ hi)]
  exact List.getElem_ofFn _

/-! ### SYNC on both -/

/-- One bit: the same branch on both sides, the same event, and the relation again. -/
theorem FiniteSync.StandsFor.sync {h : FiniteSync} {f : SyncState} (r : h.StandsFor f)
    (bit : Bool) :
    (h.sync bit).1.StandsFor (Machine.sync f bit).1 ∧
      (h.sync bit).2 = (Machine.sync f bit).2 := by
  obtain ⟨hm, hs⟩ | ⟨hm, hl, hs⟩ | ⟨hm, hl, hs⟩ := sync_cases f bit
  · have hm' : ¬ (16 ≤ h.len ∧ h.tail = syncTail) := by simp [r.match_iff, hm]
    rw [hs, FiniteSync.sync, if_neg hm']
    exact ⟨r.append bit, rfl⟩
  · rw [hs, FiniteSync.sync, if_pos (r.match_iff.2 hm), if_neg (r.len_eq_frameLen_iff.not.2 hl)]
    exact ⟨(FiniteSync.clear_standsFor _).append bit, rfl⟩
  · rw [hs, FiniteSync.sync, if_pos (r.match_iff.2 hm), if_pos (r.len_eq_frameLen_iff.2 hl),
      r.frameBits_eq hl, r.prev, r.rate]
    exact ⟨(FiniteSync.clear_standsFor _).append bit, rfl⟩

theorem FiniteSync.StandsFor.syncAll {h : FiniteSync} {f : SyncState} (r : h.StandsFor f)
    (bits : List Bool) :
    (h.syncAll bits).1.StandsFor (Machine.syncAll f bits).1 ∧
      (h.syncAll bits).2 = (Machine.syncAll f bits).2 := by
  induction bits generalizing h f with
  | nil => exact ⟨r, rfl⟩
  | cons bit bits ih =>
    obtain ⟨hone, hevent⟩ := r.sync bit
    obtain ⟨hrest, hevents⟩ := ih hone
    rw [FiniteSync.syncAll, syncAll_cons]
    exact ⟨hrest, by rw [hevent, hevents]⟩

/-- Settles O53: after reset the realisation stands for the empty buffer, and every bit keeps
it standing for what the unbounded buffer has become. -/
theorem finiteBufferShowsTheSame : Obligations.FiniteBufferShowsTheSame := by
  intro bits
  have hreset : FiniteSync.reset.StandsFor Block.reset.fs :=
    FiniteSync.reset.clear_standsFor
  obtain ⟨⟨-, -, -, hprev, hrate⟩, hevents⟩ := hreset.syncAll bits
  exact ⟨hevents, hprev, hrate⟩

end Sys2Proof.Machine
end

section
/-! Command words: their two fields, and the decoder, the encoder and the rows of the table "the
four commands" against each other (spec/30_encoding.md R71 to R74). -/

namespace Sys2Proof

/-! ### A word is its two fields (R71) -/

@[simp] theorem opField_append (op : BitVec 2) (p : BitVec 32) : opField (op ++ p) = op :=
  BitVec.extractLsb'_append_eq_left

@[simp] theorem payloadField_append (op : BitVec 2) (p : BitVec 32) :
    payloadField (op ++ p) = p :=
  BitVec.extractLsb'_append_eq_right

theorem opField_append_payloadField (w : CmdWord) : opField w ++ payloadField w = w :=
  (BitVec.extractLsb'_append_extractLsb'_eq_extractLsb' rfl).trans BitVec.extractLsb'_eq_self

theorem append_eq_iff {op : BitVec 2} {p : BitVec 32} {w : CmdWord} :
    op ++ p = w ↔ opField w = op ∧ payloadField w = p := by
  constructor
  · rintro rfl
    exact ⟨opField_append op p, payloadField_append op p⟩
  · rintro ⟨rfl, rfl⟩
    exact opField_append_payloadField w

/-- The opcodes whose payload must be zero are all but that of PUSH (R72). -/
theorem op_forbids_payload_iff (op : BitVec 2) :
    (op = 0b00#2 ∨ op = 0b10#2 ∨ op = 0b11#2) ↔ op ≠ 0b01#2 := by
  revert op
  decide

/-! ### The decoder and the encoder -/

theorem decode_encode (i : Instr) : decode (encode i) = .ok i := by
  cases i with
  | push x => simp [decode, encode]
  | nop => rfl
  | endc => rfl
  | rst => rfl

/-- A word is that of some command, or its opcode is not that of PUSH, it has a payload, and it
is rejected. -/
theorem decode_cases (w : CmdWord) :
    (∃ i, w = encode i) ∨
    (opField w ≠ 0b01#2 ∧ payloadField w ≠ 0#32 ∧ ∃ r, decode w = .error r) := by
  by_cases hop : opField w = 0b01#2
  · exact .inl ⟨.push (payloadField w), (append_eq_iff.2 ⟨hop, rfl⟩).symm⟩
  by_cases hp : payloadField w = 0#32
  · obtain h | h | h := (op_forbids_payload_iff _).2 hop
    · exact .inl ⟨.nop, (append_eq_iff.2 ⟨h, hp⟩).symm⟩
    · exact .inl ⟨.endc, (append_eq_iff.2 ⟨h, hp⟩).symm⟩
    · exact .inl ⟨.rst, (append_eq_iff.2 ⟨h, hp⟩).symm⟩
  · refine .inr ⟨hop, hp, ?_⟩
    simp only [decode, if_neg hop, if_neg hp]
    split_ifs <;> exact ⟨_, rfl⟩

theorem decode_eq_ok_iff {w : CmdWord} {i : Instr} : decode w = .ok i ↔ encode i = w := by
  constructor
  · intro h
    obtain ⟨j, rfl⟩ | ⟨-, -, r, hr⟩ := decode_cases w
    · rw [decode_encode] at h
      cases h
      rfl
    · rw [hr] at h
      cases h
  · rintro rfl
    exact decode_encode i

/-- Settles O2: a command survives encoding, and a word that decodes is one that was encoded. -/
theorem decodeAndEncodeAgree : Obligations.DecodeAndEncodeAgree :=
  ⟨decode_encode, fun _ _ => decode_eq_ok_iff.1⟩

/-- Settles O1, by evaluating the decoder on the ten words. -/
theorem specWordsDecode : Obligations.SpecWordsDecode := by
  unfold Obligations.SpecWordsDecode
  decide

/-! ### The rows of R72 -/

/-- A row whose mask is all ones accepts its value alone. -/
theorem CmdRow.accepts_full_mask {w value : CmdWord} :
    CmdRow.accepts ⟨0x3FFFFFFFF#34, value⟩ w = true ↔ value = w := by
  have meets : w &&& 0x3FFFFFFFF#34 = w := BitVec.and_allOnes
  rw [CmdRow.accepts, meets, beq_iff_eq, eq_comm]

/-- The row of PUSH masks the payload out. -/
theorem rowPush_accepts_iff {w : CmdWord} : rowPush.accepts w = true ↔ opField w = 0b01#2 := by
  have mask : (0x300000000#34 : CmdWord) = BitVec.allOnes 2 ++ 0#32 := by decide
  have meets : w &&& rowPush.mask = opField w ++ 0#32 := by
    rw [rowPush, mask]
    nth_rw 1 [← opField_append_payloadField w]
    rw [BitVec.and_append, BitVec.and_allOnes, BitVec.and_zero]
  rw [CmdRow.accepts, meets, beq_iff_eq]
  exact BitVec.append_left_inj 0#32 (s₂ := 0b01#2)

/-- The row of a command, with the payload of the word, singles out the word of the command. -/
theorem row_accepts_iff {w : CmdWord} {i : Instr} :
    (i.row.accepts w = true ∧ ∀ x, i = .push x → x = payloadField w) ↔ encode i = w := by
  cases i with
  | push x =>
    rw [Instr.row, rowPush_accepts_iff, encode, append_eq_iff]
    simp [eq_comm]
  | nop => exact (and_iff_left (by simp)).trans CmdRow.accepts_full_mask
  | endc => exact (and_iff_left (by simp)).trans CmdRow.accepts_full_mask
  | rst => exact (and_iff_left (by simp)).trans CmdRow.accepts_full_mask

/-- Settles O3: the decoder and the row of a command both single out the word of the command. -/
theorem decodeFollowsTheMaskMatchRows : Obligations.DecodeFollowsTheMaskMatchRows :=
  fun _ _ => decode_eq_ok_iff.trans row_accepts_iff.symm

/-- The well-formed words are those of the commands. -/
theorem wellFormed_iff {w : CmdWord} : CmdWord.wellFormed w = true ↔ ∃ i, encode i = w := by
  constructor
  · intro h
    obtain h | h | h | h : rowNop.accepts w = true ∨ rowPush.accepts w = true ∨
        rowEndc.accepts w = true ∨ rowRst.accepts w = true := by
      simpa [CmdWord.wellFormed, cmdRows] using h
    · exact ⟨.nop, row_accepts_iff.1 ⟨h, by simp⟩⟩
    · exact ⟨.push (payloadField w), row_accepts_iff.1 ⟨h, by simp⟩⟩
    · exact ⟨.endc, row_accepts_iff.1 ⟨h, by simp⟩⟩
    · exact ⟨.rst, row_accepts_iff.1 ⟨h, by simp⟩⟩
  · rintro ⟨i, rfl⟩
    have hrow : i.row ∈ cmdRows := by cases i <;> simp [Instr.row, cmdRows]
    exact List.any_eq_true.2 ⟨i.row, hrow, (row_accepts_iff.2 rfl).1⟩

/-- No command has a payload but PUSH (R72). -/
theorem encode_fields (i : Instr) :
    opField (encode i) = 0b01#2 ∨ payloadField (encode i) = 0#32 := by
  cases i with
  | push x => exact .inl (opField_append _ x)
  | nop => exact .inr (payloadField_append _ _)
  | endc => exact .inr (payloadField_append _ _)
  | rst => exact .inr (payloadField_append _ _)

/-- Settles O4: the word of a command meets none of the three conditions, any other meets all. -/
theorem illegalWordsAreThoseWithAForbiddenPayload :
    Obligations.IllegalWordsAreThoseWithAForbiddenPayload := by
  intro w
  rw [op_forbids_payload_iff]
  obtain ⟨i, rfl⟩ | ⟨hop, hp, r, hr⟩ := decode_cases w
  · have hwf : CmdWord.wellFormed (encode i) = true := wellFormed_iff.2 ⟨i, rfl⟩
    have hfields := encode_fields i
    rw [decode_encode, hwf]
    exact ⟨by simp, by simpa [imp_iff_not_or] using hfields⟩
  · have hwf : CmdWord.wellFormed w = false := by
      rw [Bool.eq_false_iff, Ne, wellFormed_iff]
      rintro ⟨i, rfl⟩
      rw [decode_encode] at hr
      cases hr
    exact ⟨iff_of_true ⟨r, hr⟩ hwf, iff_of_true hwf ⟨hop, hp⟩⟩

end Sys2Proof
end

section
/-! Which command emits events, and the fields of the word an event is (spec/30_encoding.md R75,
R76). -/

namespace Sys2Proof.Machine

theorem pushCommand_events {n v : Nat} (P : Config.Params n v) (x : BitVec n) (b : BlockOf n v) :
    (pushCommand P x b).2 = [] := by
  obtain ⟨-, hp⟩ | ⟨-, c, -, hp⟩ | ⟨-, t, -, hp⟩ := pushCommand_cases P x b <;> rw [hp]

/-- A command that emits is an ENDC on a block with no fault recorded. -/
theorem blockCommand_emits {v : Nat} {P : Config.Params Config.sampleW v} {i : Instr}
    {b : BlockOf Config.sampleW v} (h : (blockCommand P i b).2 ≠ []) :
    i = .endc ∧ b.fault = 0#2 := by
  cases i with
  | nop => exact absurd rfl h
  | push x => exact absurd (pushCommand_events P x b) h
  | endc =>
    obtain ⟨-, he⟩ | ⟨hf, -⟩ := endcCommand_cases b
    · exact absurd (congrArg Prod.snd he) h
    · exact ⟨rfl, hf⟩
  | rst => exact absurd rfl h

/-- Settles O23: `exec` appends to the events what the block's command emits. -/
theorem onlyEndcEmits : Obligations.OnlyEndcEmits := by
  intro i s t hexec hne
  rw [exec_eq_commit] at hexec
  cases hexec
  exact blockCommand_emits (P := hardware) fun hnone => hne (by simp [hnone])

/-! ### Reading one part of a concatenation -/

theorem getLsbD_append_of_le {n m i : Nat} {x : BitVec n} {y : BitVec m} (h : m ≤ i) :
    (x ++ y).getLsbD i = x.getLsbD (i - m) := by
  rw [BitVec.getLsbD_append, if_neg h.not_gt]

theorem getLsbD_append_ofBool {n i : Nat} {x : BitVec n} {bit : Bool} (h : i = 0) :
    (x ++ BitVec.ofBool bit).getLsbD i = bit := by
  rw [h, BitVec.getLsbD_append]
  simp

theorem extractLsb'_append_low {n m i : Nat} {x : BitVec n} {y : BitVec m} (h : i = 0) :
    (x ++ y).extractLsb' i m = y := by
  rw [h, BitVec.extractLsb'_append_eq_right]

theorem extractLsb'_whole {n i : Nat} {x : BitVec n} (h : i = 0) : x.extractLsb' i n = x := by
  rw [h, BitVec.extractLsb'_eq_self]

/-- Settles O58: a field of the word is found by dropping the fields below it, one by one. -/
theorem eventWordHoldsEveryField : Obligations.EventWordHoldsEveryField := by
  intro e
  unfold Event.word
  simp (disch := decide) only [BitVec.extractLsb'_append_eq_of_le, extractLsb'_append_low,
    extractLsb'_whole, getLsbD_append_of_le, getLsbD_append_ofBool, true_and]
  exact ⟨rfl, rfl⟩

end Sys2Proof.Machine
end

section
/-! FDEC and the layout it reads (spec/30_encoding.md R80, R81; spec/46_frame_decode.md R170 to
R177). -/

namespace Sys2Proof.Machine

/-! ### Fields and bits -/

/-- A field is a number whose binary digits are its bits (R80). -/
theorem testBit_fld (B : List Bool) (o n i : Nat) :
    (fld B o n).testBit i = (decide (i < n) && bitAt B (o + i)) := by
  induction n with
  | zero => simp [fld]
  | succ n ih =>
    rw [fld, add_comm, mul_comm, Nat.testBit_two_pow_mul_add _ (fld_lt B o n), ih]
    obtain h | rfl | h := lt_trichotomy i n
    · simp [h, h.trans (Nat.lt_succ_self n)]
    · cases bitAt B (o + i) <;> simp
    · have hlt : (bitAt B (o + n)).toNat < 2 ^ (i - n) :=
        (Bool.toNat_lt _).trans_le (Nat.le_self_pow (by omega) 2)
      have hpast : ¬ i < n + 1 := by omega
      rw [if_neg h.not_gt, Nat.testBit_lt_two_pow hlt, decide_eq_false hpast, Bool.false_and]

/-- Two buffers hold the same number in a row exactly when they hold the same bits there. -/
theorem field_eq_iff {B C : List Bool} {r : LayoutRow} :
    field B r = field C r ↔ ∀ i < r.width, bitAt B (r.offset + i) = bitAt C (r.offset + i) := by
  constructor
  · intro h i hi
    simpa [field, testBit_fld, hi] using congrArg (Nat.testBit · i) h
  · intro h
    refine fld_congr fun i hlo hhi => ?_
    obtain ⟨j, rfl⟩ := Nat.exists_eq_add_of_le hlo
    exact h j (by omega)

@[simp] theorem length_rowBits (B : List Bool) (r : LayoutRow) :
    (rowBits B r).length = r.width := by
  simp [rowBits]

theorem bitAt_rowBits {B : List Bool} {r : LayoutRow} {i : Nat} (h : i < r.width) :
    bitAt (rowBits B r) i = bitAt B (r.offset + i) := by
  simp [bitAt, rowBits, h]

/-- Rows of one width read one after the other: bit `i` of row `k`. -/
theorem bitAt_flatMap_rowBits (B : List Bool) {w k i : Nat} {rows : List LayoutRow}
    (hw : ∀ r ∈ rows, r.width = w) (hk : k < rows.length) (hi : i < w) :
    bitAt (rows.flatMap (rowBits B)) (w * k + i) = bitAt B (rows[k].offset + i) := by
  induction rows generalizing k with
  | nil => simp at hk
  | cons r rows ih =>
    obtain ⟨hr, hrows⟩ := List.forall_mem_cons.1 hw
    rw [List.flatMap_cons]
    cases k with
    | zero =>
      rw [Nat.mul_zero, Nat.zero_add, bitAt_append_left (by simpa [hr]),
        bitAt_rowBits (by rwa [hr]), List.getElem_cons_zero]
    | succ k =>
      have hskip : w * (k + 1) + i = w + (w * k + i) := by ring
      rw [bitAt_append_right (by simp [hr, hskip]), length_rowBits, hr, hskip,
        Nat.add_sub_cancel_left, List.getElem_cons_succ]
      exact ih hrows (by simpa using hk)

/-- `fld` sums its bits as binary digits. -/
theorem fld_eq_ofDigits (B : List Bool) (o n : Nat) :
    fld B o n = Nat.ofDigits 2 ((List.range n).map fun i => (bitAt B (o + i)).toNat) := by
  induction n with
  | zero => rfl
  | succ n ih => simp [fld, ih, List.range_succ, Nat.ofDigits_append, mul_comm]

theorem field_eq_ofDigits (B : List Bool) (r : LayoutRow) :
    field B r = Nat.ofDigits 2 ((rowBits B r).map Bool.toNat) := by
  rw [field, fld_eq_ofDigits, rowBits, List.map_map]
  rfl

theorem fld_whole (B : List Bool) : fld B 0 B.length = Nat.ofDigits 2 (B.map Bool.toNat) := by
  have hB : (List.range B.length).map (bitAt B) = B :=
    eq_of_bitAt (by simp) fun i hi => by
      have hi : i < B.length := by simpa using hi
      simp [bitAt, hi]
  conv_rhs => rw [← hB, List.map_map]
  simp [fld_eq_ofDigits, Function.comp_def]

/-- Rows of one width read one after the other: their numbers are the digits of the whole. -/
theorem ofDigits_flatMap_rowBits (B : List Bool) {w : Nat} {rows : List LayoutRow}
    (hw : ∀ r ∈ rows, r.width = w) :
    Nat.ofDigits 2 ((rows.flatMap (rowBits B)).map Bool.toNat) =
      Nat.ofDigits (2 ^ w) (rows.map (field B)) := by
  induction rows with
  | nil => rfl
  | cons r rows ih =>
    obtain ⟨hr, hrows⟩ := List.forall_mem_cons.1 hw
    rw [List.flatMap_cons, List.map_append, Nat.ofDigits_append, ih hrows, List.map_cons,
      Nat.ofDigits_cons, ← field_eq_ofDigits, List.length_map, length_rowBits, hr]

/-! ### The parts of the record -/

theorem getLsbD_ofNat_fld {n k : Nat} (B : List Bool) (hk : k < n) :
    (BitVec.ofNat n (fld B 0 n)).getLsbD k = bitAt B k := by
  rw [BitVec.getLsbD_ofNat, testBit_fld]
  simp [hk]

/-- Settles O57: the format indicator and the user data read rows of one width each, at offsets
16 and 8 apart. -/
theorem flagsAndUserBitsAreCopies : Obligations.FlagsAndUserBitsAreCopies := by
  refine fun B => ⟨rfl, rfl, rfl, fun k hk => ?ubf, fun k hk i hi => ?user⟩
  case ubf =>
    have hk : k < formatRows.length := hk
    have hoffset : ∀ k (hk : k < formatRows.length), formatRows[k].offset = 27 + 16 * k := by decide
    have hbit : bitAt (formatBits B) (1 * k + 0) = bitAt B (formatRows[k].offset + 0) :=
      bitAt_flatMap_rowBits B (by decide) hk one_pos
    calc (fdec B).ubf.getLsbD k = bitAt (formatBits B) k := getLsbD_ofNat_fld _ hk
      _ = bitAt B (27 + 16 * k) := by simpa [hoffset k hk] using hbit
  case user =>
    have hk : k < userRows.length := hk
    have hj : 4 * k + i < 32 := by omega
    have hoffset : ∀ k (hk : k < userRows.length), userRows[k].offset = 4 + 8 * k := by decide
    have hbit : bitAt (userBits B) (4 * k + i) = bitAt B (userRows[k].offset + i) :=
      bitAt_flatMap_rowBits B (by decide) hk hi
    calc (fdec B).user.getLsbD (4 * k + i) = bitAt (userBits B) (4 * k + i) :=
          getLsbD_ofNat_fld _ hj
      _ = bitAt B (4 + 8 * k + i) := by rw [hbit, hoffset k hk]

/-- Units plus ten times tens is exact in a field that holds its largest value (R171, R172). -/
theorem toNat_ofNat_pd {w : Nat} {units tens : LayoutRow} (B : List Bool)
    (hw : 2 ^ units.width - 1 + tensWeight * (2 ^ tens.width - 1) < 2 ^ w) :
    (BitVec.ofNat w (pd B units tens)).toNat = field B units + 10 * field B tens := by
  have hu : field B units < 2 ^ units.width := fld_lt B _ _
  have ht : field B tens < 2 ^ tens.width := fld_lt B _ _
  refine Nat.mod_eq_of_lt (?_ : field B units + tensWeight * field B tens < _)
  rw [tensWeight] at hw ⊢
  omega

/-- A part of the record made of rows of one width, as the digits of a number. -/
theorem toNat_ofNat_fld_rows (B : List Bool) {w n : Nat} {rows : List LayoutRow}
    (hw : ∀ r ∈ rows, r.width = w) (hn : (rows.flatMap (rowBits B)).length = n) :
    (BitVec.ofNat n (fld (rows.flatMap (rowBits B)) 0 n)).toNat =
      Nat.ofDigits (2 ^ w) (rows.map (field B)) := by
  rw [BitVec.toNat_ofNat, Nat.mod_eq_of_lt (fld_lt _ _ _), ← ofDigits_flatMap_rowBits B hw,
    ← fld_whole, hn]

theorem fdec_ubf_toNat (B : List Bool) :
    (fdec B).ubf.toNat = Nat.ofDigits 2 (formatRows.map (field B)) :=
  toNat_ofNat_fld_rows B (w := 1) (by decide) rfl

theorem fdec_user_toNat (B : List Bool) :
    (fdec B).user.toNat = Nat.ofDigits 16 (userRows.map (field B)) :=
  toNat_ofNat_fld_rows B (w := 4) (by decide) rfl

theorem fdec_numbers (B : List Bool) :
    (fdec B).frame.toNat = field B rowFrameUnits + 10 * field B rowFrameTens ∧
    (fdec B).second.toNat = field B rowSecondUnits + 10 * field B rowSecondTens ∧
    (fdec B).minute.toNat = field B rowMinuteUnits + 10 * field B rowMinuteTens ∧
    (fdec B).hour.toNat = field B rowHourUnits + 10 * field B rowHourTens :=
  ⟨toNat_ofNat_pd B (by decide), toNat_ofNat_pd B (by decide), toNat_ofNat_pd B (by decide),
    toNat_ofNat_pd B (by decide)⟩

theorem fdec_flags (B : List Bool) :
    (fdec B).dropFrame.toNat = field B rowDropFrame ∧
    (fdec B).colorFrame.toNat = field B rowColorFrame ∧
    (fdec B).clock.toNat = field B rowClock :=
  ⟨(field_of_width_one rfl).symm, (field_of_width_one rfl).symm, (field_of_width_one rfl).symm⟩

/-! ### What the record depends on, and what it determines -/

def unitsRows : List LayoutRow := [rowFrameUnits, rowSecondUnits, rowMinuteUnits, rowHourUnits]

def tensRows : List LayoutRow := [rowFrameTens, rowSecondTens, rowMinuteTens, rowHourTens]

def flagRows : List LayoutRow := [rowDropFrame, rowColorFrame, rowClock]

/-- The rows of the frame layout below the sync word, by the part of the record they go to. -/
def dataRows : List LayoutRow := unitsRows ++ (tensRows ++ (flagRows ++ (formatRows ++ userRows)))

/-- The data rows cover bits 0 to 63 (R80). -/
theorem exists_dataRow_of_lt : ∀ i < 64, ∃ r ∈ dataRows, r.offset ≤ i ∧ i < r.offset + r.width := by
  decide

theorem bits_eq_of_dataRows {B C : List Bool} (h : ∀ r ∈ dataRows, field B r = field C r) :
    ∀ i < 64, bitAt B i = bitAt C i := by
  intro i hi
  obtain ⟨r, hr, hlo, hhi⟩ := exists_dataRow_of_lt i hi
  obtain ⟨j, rfl⟩ := Nat.exists_eq_add_of_le hlo
  exact field_eq_iff.1 (h r hr) j (by omega)

/-- FDEC reads bits 0 to 63 alone (R176). -/
theorem fdec_congr {B C : List Bool} (h : ∀ i < 64, bitAt B i = bitAt C i) : fdec B = fdec C := by
  have hfield (r : LayoutRow) (hr : r.offset + r.width ≤ 64) : field B r = field C r :=
    fld_congr fun i _ hi => h i (by omega)
  have huser : userBits B = userBits C := by simp [userBits_eq, h]
  have hformat : formatBits B = formatBits C := by simp [formatBits_eq, h]
  simp (disch := decide) only [fdec, pd, hfield, h, huser, hformat]

/-- The digits of a number are its own, so rows of one width hold the same numbers. -/
theorem field_eq_of_ofDigits_eq {B C : List Bool} {w : Nat} {rows : List LayoutRow} (hpos : w ≠ 0)
    (hw : ∀ r ∈ rows, r.width = w)
    (h : Nat.ofDigits (2 ^ w) (rows.map (field B)) = Nat.ofDigits (2 ^ w) (rows.map (field C))) :
    ∀ r ∈ rows, field B r = field C r := by
  have hdigit (D : List Bool) : ∀ d ∈ rows.map (field D), d < 2 ^ w :=
    List.forall_mem_map.2 fun r hr => hw r hr ▸ fld_lt D r.offset r.width
  exact List.map_inj_left.1 (Nat.ofDigits_inj_of_len_eq (Nat.one_lt_two_pow hpos) (by simp)
    (hdigit B) (hdigit C) h)

/-- The record and its units digits determine every data row (R177). -/
theorem dataRows_eq_of_fdec_eq {B C : List Bool} (h : fdec B = fdec C)
    (hunits : ∀ r ∈ unitsRows, field B r = field C r) : ∀ r ∈ dataRows, field B r = field C r := by
  have htens : ∀ r ∈ tensRows, field B r = field C r := by
    have hB := fdec_numbers B
    have hC := fdec_numbers C
    simp only [unitsRows, tensRows, List.forall_mem_cons, List.not_mem_nil, false_imp_iff,
      implies_true, and_true] at hunits ⊢
    rw [h] at hB
    omega
  have hflags : ∀ r ∈ flagRows, field B r = field C r := by
    have hB := fdec_flags B
    have hC := fdec_flags C
    simp only [flagRows, List.forall_mem_cons, List.not_mem_nil, false_imp_iff,
      implies_true, and_true]
    rw [h] at hB
    omega
  have hformat : ∀ r ∈ formatRows, field B r = field C r :=
    field_eq_of_ofDigits_eq (w := 1) one_ne_zero (by decide)
      ((fdec_ubf_toNat B).symm.trans (h ▸ fdec_ubf_toNat C))
  have huser : ∀ r ∈ userRows, field B r = field C r :=
    field_eq_of_ofDigits_eq (w := 4) four_ne_zero (by decide)
      ((fdec_user_toNat B).symm.trans (h ▸ fdec_user_toNat C))
  simp only [dataRows, List.forall_mem_append]
  exact ⟨hunits, htens, hflags, hformat, huser⟩

/-- Settles O54: the table and its cover by evaluation, the record from its rows, and the last
two clauses from what the record depends on and what it determines. -/
theorem fdecReadsTheLayout : Obligations.FdecReadsTheLayout := by
  refine ⟨rfl, by decide, fun B => ?_, fun B C => fdec_congr, fun B C h hunits =>
    bits_eq_of_dataRows (dataRows_eq_of_fdec_eq h hunits)⟩
  obtain ⟨hframe, hsecond, hminute, hhour⟩ := fdec_numbers B
  obtain ⟨hdrop, hcolor, hclock⟩ := fdec_flags B
  refine ⟨hframe, hsecond, hminute, hhour, hdrop, hcolor, hclock, ?ubf, ?user⟩
  case ubf =>
    rw [fdec_ubf_toNat]
    simp only [formatRows, List.map_cons, List.map_nil, Nat.ofDigits_cons, Nat.ofDigits_nil]
    ring
  case user =>
    rw [fdec_user_toNat]
    simp only [userRows, List.map_cons, List.map_nil, Nat.ofDigits_cons, Nat.ofDigits_nil]
    ring

end Sys2Proof.Machine
end

section
/-! The two ways a PUSH completes on the machine (spec/47_commands.md R192). -/

namespace Sys2Proof.Machine

/-- Settles O12: below its limit RLE counts an equal symbol, and the counter does not wrap. -/
theorem pushContinuesTheRun : Obligations.PushContinuesTheRun := by
  intro s x hf hn hp hc
  have hpush := pushCommand_of_rle_ok (P := hardware) (x := x) hf hn (rle_same hp hc)
  refine ⟨s.blk.rl.count + 1, toNat_count_add_one hc, ?_⟩
  rw [exec_eq_commit, blockCommand, hpush, commit_silent]
  simp

/-- Settles O13: RLE emits the count of the run a different symbol ends. -/
theorem pushEndsTheRun : Obligations.PushEndsTheRun := by
  intro s x hf hn hp
  have hpush := pushCommand_of_rle_ok (P := hardware) (x := x) hf hn (rle_change hp)
  rw [exec_eq_commit, blockCommand, hpush, commit_silent]
  rfl

end Sys2Proof.Machine
end

section
/-! The two parts of a Sample that the binary32 operations look at, the sign and the low 31 bits,
and what those bits say (spec/30_encoding.md R73; spec/41_polarity.md R111). -/

namespace Sys2Proof.Machine

/-- Bits 30:0 of a Sample. For values of one sign they grow with the magnitude. -/
def lowBits (x : Sample) : Nat := x.toNat % 2 ^ 31

theorem lowBits_lt (x : Sample) : lowBits x < 2 ^ 31 := Nat.mod_lt _ (by decide)

theorem expField_eq (x : Sample) : expField x = lowBits x / 2 ^ 23 :=
  (Nat.mod_mul_right_div_self x.toNat (2 ^ 23) (2 ^ 8)).symm

theorem fracField_eq (x : Sample) : fracField x = lowBits x % 2 ^ 23 :=
  (Nat.mod_mod_of_dvd x.toNat (by decide)).symm

theorem isNaN_iff {x : Sample} : isNaN x = true ↔ infBits < lowBits x := by
  have := lowBits_lt x
  simp only [isNaN, expField_eq, fracField_eq, infBits, Bool.and_eq_true, beq_iff_eq, bne_iff_ne]
  omega

theorem isNaN_eq_false_iff {x : Sample} : isNaN x = false ↔ lowBits x ≤ infBits := by
  rw [← Bool.not_eq_true, isNaN_iff, not_lt]

theorem isInf_iff {x : Sample} : isInf x = true ↔ lowBits x = infBits := by
  have := lowBits_lt x
  simp only [isInf, expField_eq, fracField_eq, infBits, Bool.and_eq_true, beq_iff_eq]
  omega

theorem isZero_iff {x : Sample} : isZero x = true ↔ lowBits x = 0 := by
  have := lowBits_lt x
  simp only [isZero, expField_eq, fracField_eq, Bool.and_eq_true, beq_iff_eq]
  omega

theorem fgt0_iff {x : Sample} :
    fgt0 x = true ↔ signBit x = false ∧ lowBits x ≠ 0 ∧ lowBits x ≤ infBits := by
  simp only [fgt0, Bool.and_eq_true, Bool.not_eq_true', isNaN_eq_false_iff, and_assoc]
  rw [← Bool.not_eq_true (isZero x), isZero_iff]

/-- Neither a NaN nor an infinity. -/
def IsFinite (x : Sample) : Prop := lowBits x < infBits

theorem isFinite_iff {x : Sample} : IsFinite x ↔ isNaN x = false ∧ isInf x = false := by
  rw [isNaN_eq_false_iff, ← Bool.not_eq_true, isInf_iff]
  exact lt_iff_le_and_ne

theorem isFinite_or_isInf {x : Sample} (h : isNaN x = false) : IsFinite x ∨ isInf x = true := by
  rw [isInf_iff]
  exact (isNaN_eq_false_iff.1 h).lt_or_eq

theorem signBit_eq (x : Sample) : signBit x = decide (2 ^ 31 ≤ x.toNat) := BitVec.msb_eq_decide x

theorem toNat_eq_sign_add_lowBits (x : Sample) :
    x.toNat = (if signBit x then 2 ^ 31 else 0) + lowBits x := by
  have hx : x.toNat < 2 ^ 32 := x.isLt
  simp only [signBit_eq, lowBits, decide_eq_true_eq]
  split <;> omega

/-- A Sample is its sign and its low bits. -/
theorem eq_of_signBit_eq_of_lowBits_eq {x y : Sample} (hs : signBit x = signBit y)
    (hl : lowBits x = lowBits y) : x = y := by
  apply BitVec.eq_of_toNat_eq
  rw [toNat_eq_sign_add_lowBits, toNat_eq_sign_add_lowBits, hs, hl]

theorem lt_of_le_infBits {low : Nat} (h : low ≤ infBits) : low < 2 ^ 31 := h.trans_lt (by decide)

section
variable {sign : Bool} {low : Nat} (h : low ≤ infBits)
include h

theorem toNat_packSample :
    (packSample sign low).toNat = (if sign then 2 ^ 31 else 0) + low := by
  have hlow := lt_of_le_infBits h
  refine Nat.mod_eq_of_lt (?_ : _ < 2 ^ 32)
  split <;> omega

theorem lowBits_packSample : lowBits (packSample sign low) = low := by
  have hlow := lt_of_le_infBits h
  rw [lowBits, toNat_packSample h]
  split <;> omega

theorem signBit_packSample : signBit (packSample sign low) = sign := by
  have hlow := lt_of_le_infBits h
  rw [signBit_eq, toNat_packSample h]
  cases sign with
  | false => exact decide_eq_false (by simpa using hlow)
  | true => simp

end

/-! ### Negation -/

theorem signBit_negate (x : Sample) : signBit (negate x) = !signBit x := by
  simp [signBit, negate]

theorem lowBits_negate (x : Sample) : lowBits (negate x) = lowBits x := by
  have hlow (y : Sample) : lowBits y = (y.extractLsb' 0 31).toNat := by simp [lowBits]
  rw [hlow, hlow, negate, BitVec.extractLsb'_xor]
  simp

theorem isNaN_negate (x : Sample) : isNaN (negate x) = isNaN x := by
  rw [Bool.eq_iff_iff, isNaN_iff, isNaN_iff, lowBits_negate]

theorem isInf_negate (x : Sample) : isInf (negate x) = isInf x := by
  rw [Bool.eq_iff_iff, isInf_iff, isInf_iff, lowBits_negate]

/-- Two infinities are the same or each other's negation. -/
theorem eq_or_eq_negate_of_isInf {a b : Sample} (ha : isInf a = true) (hb : isInf b = true) :
    a = b ∨ a = negate b := by
  rw [isInf_iff] at ha hb
  by_cases hs : signBit a = signBit b
  · exact .inl (eq_of_signBit_eq_of_lowBits_eq hs (ha.trans hb.symm))
  · refine .inr (eq_of_signBit_eq_of_lowBits_eq ?_ ?_)
    · rw [signBit_negate]
      exact Bool.eq_not_of_ne hs
    · rw [lowBits_negate, ha, hb]

end Sys2Proof.Machine
end

section
/-! The magnitude of a value as a function of its low bits, and rounding to nearest (spec/
40_smoothing.md R101): monotone, and exact on every value binary32 has. -/

namespace Sys2Proof.Machine

/-- The magnitude the low bits `c` stand for, in units of 2^-149, with the exponent unbounded. -/
def lowMagnitude (c : Nat) : Nat :=
  if c / 2 ^ 23 = 0 then c % 2 ^ 23 else (2 ^ 23 + c % 2 ^ 23) * 2 ^ (c / 2 ^ 23 - 1)

theorem magnitude_eq (x : Sample) : magnitude x = lowMagnitude (lowBits x) := by
  rw [magnitude, expField_eq, fracField_eq, lowMagnitude]

/-- Low bits written as an exponent `k` and an integer significand `q` that counts its leading
one; `q = 2^24` is the carry into the exponent. -/
theorem lowMagnitude_scaled {k q : Nat} (hq : q ≤ 2 ^ 24) (hnormal : k = 0 ∨ 2 ^ 23 ≤ q) :
    lowMagnitude (k * 2 ^ 23 + q) = q * 2 ^ k := by
  unfold lowMagnitude
  obtain hsub | hnorm | rfl : q < 2 ^ 23 ∨ (2 ^ 23 ≤ q ∧ q < 2 ^ 24) ∨ q = 2 ^ 24 := by omega
  · obtain rfl : k = 0 := by omega
    rw [if_pos (by omega)]
    omega
  · have hexp : (k * 2 ^ 23 + q) / 2 ^ 23 = k + 1 := by omega
    have hfrac : 2 ^ 23 + (k * 2 ^ 23 + q) % 2 ^ 23 = q := by omega
    rw [hexp, hfrac, if_neg (Nat.succ_ne_zero k), Nat.add_sub_cancel]
  · have hexp : (k * 2 ^ 23 + 2 ^ 24) / 2 ^ 23 = k + 2 := by omega
    have hfrac : (k * 2 ^ 23 + 2 ^ 24) % 2 ^ 23 = 0 := by omega
    rw [hexp, hfrac, if_neg (by omega), Nat.add_sub_assoc (by decide), pow_add]
    ring

theorem lowMagnitude_of_le {c : Nat} (h : c ≤ 2 ^ 24) : lowMagnitude c = c := by
  simpa using lowMagnitude_scaled (k := 0) h (.inl rfl)

theorem exists_scaled (c : Nat) :
    ∃ k q, c = k * 2 ^ 23 + q ∧ q < 2 ^ 24 ∧ (k = 0 ∨ 2 ^ 23 ≤ q) := by
  refine ⟨c / 2 ^ 23 - 1, c - (c / 2 ^ 23 - 1) * 2 ^ 23, ?_, ?_, ?_⟩ <;> omega

theorem lowMagnitude_strictMono : StrictMono lowMagnitude := by
  refine strictMono_nat_of_lt_succ fun c => ?_
  obtain ⟨k, q, rfl, hq, hnormal⟩ := exists_scaled c
  rw [add_assoc, lowMagnitude_scaled hq.le hnormal, lowMagnitude_scaled hq (by omega)]
  exact Nat.mul_lt_mul_of_pos_right (Nat.lt_succ_self q) (Nat.two_pow_pos k)

theorem lowMagnitude_infBits : lowMagnitude infBits = 2 ^ 24 * 2 ^ 253 :=
  lowMagnitude_scaled (k := 253) le_rfl (.inr (by decide))

/-- Twice a magnitude is a magnitude: the exponent has no upper end here. -/
theorem exists_lowMagnitude_eq_double (c : Nat) : ∃ d, lowMagnitude d = 2 * lowMagnitude c := by
  obtain ⟨k, q, rfl, hq, hnormal⟩ := exists_scaled c
  rw [lowMagnitude_scaled hq.le hnormal]
  by_cases h : 2 ^ 23 ≤ q
  · refine ⟨(k + 1) * 2 ^ 23 + q, ?_⟩
    rw [lowMagnitude_scaled hq.le (.inr h), pow_succ]
    ring
  · obtain rfl : k = 0 := hnormal.resolve_right h
    refine ⟨2 * q, ?_⟩
    rw [lowMagnitude_of_le (by omega), pow_zero, mul_one]

/-- Whole numbers of 24 bits, scaled by any power of two, are magnitudes (R105). -/
theorem exists_lowMagnitude_eq {q : Nat} (hq : q ≤ 2 ^ 24) (k : Nat) :
    ∃ c, lowMagnitude c = q * 2 ^ k := by
  induction k with
  | zero => exact ⟨q, by rw [lowMagnitude_of_le hq, pow_zero, mul_one]⟩
  | succ k ih =>
    obtain ⟨c, hc⟩ := ih
    obtain ⟨d, hd⟩ := exists_lowMagnitude_eq_double c
    exact ⟨d, by rw [hd, hc, pow_succ]; ring⟩

/-! ### Rounding -/

/-- The quotient `n` cut to 24 bits, as `roundNearest` cuts it: the significand is in range, and
normal unless nothing was cut. -/
theorem significand_bounds (n : Nat) :
    n / 2 ^ (Nat.log2 n - 23) < 2 ^ 24 ∧
      (Nat.log2 n - 23 = 0 ∨ 2 ^ 23 ≤ n / 2 ^ (Nat.log2 n - 23)) := by
  by_cases hk : Nat.log2 n ≤ 23
  · have hn : n < 2 ^ 24 := Nat.lt_log2_self.trans_le (Nat.pow_le_pow_right two_pos (by omega))
    have hzero : Nat.log2 n - 23 = 0 := by omega
    rw [hzero, pow_zero, Nat.div_one]
    exact ⟨hn, .inl rfl⟩
  · have hn : n ≠ 0 := by
      rintro rfl
      exact hk (by decide)
    obtain ⟨k, hlog⟩ := Nat.exists_eq_add_of_le (not_le.1 hk).le
    have hsub : Nat.log2 n - 23 = k := by omega
    rw [hsub, Nat.div_lt_iff_lt_mul (Nat.two_pow_pos k), Nat.le_div_iff_mul_le (Nat.two_pow_pos k),
      ← pow_add, ← pow_add]
    refine ⟨?_, .inr ?_⟩
    · have : n < 2 ^ (Nat.log2 n + 1) := Nat.lt_log2_self
      rwa [hlog, show 23 + k + 1 = 24 + k by omega] at this
    · rw [← hlog]
      exact Nat.log2_self_le hn

/-- What `roundNearest` answers: with `c` the low bits just below the quotient, `c` itself, or the
next value up, and the latter only when `c` is not exact. -/
theorem roundNearest_cases (num : Nat) {den : Nat} (hden : 0 < den) :
    ∃ c, lowMagnitude c * den ≤ num ∧ num < lowMagnitude (c + 1) * den ∧
      (roundNearest num den = min c infBits ∨
        (lowMagnitude c * den < num ∧ roundNearest num den = min (c + 1) infBits)) := by
  obtain ⟨hq, hnormal⟩ := significand_bounds (num / den)
  rw [Nat.div_div_eq_div_mul] at hq hnormal
  simp only [roundNearest]
  generalize Nat.log2 (num / den) - 23 = k at *
  have hd : 0 < den * 2 ^ k := Nat.mul_pos hden (Nat.two_pow_pos k)
  have hsplit : num / (den * 2 ^ k) * (den * 2 ^ k) + num % (den * 2 ^ k) = num :=
    Nat.div_add_mod' num _
  have hr : num % (den * 2 ^ k) < den * 2 ^ k := Nat.mod_lt _ hd
  generalize num / (den * 2 ^ k) = q at *
  generalize num % (den * 2 ^ k) = r at *
  have hbelow : lowMagnitude (k * 2 ^ 23 + q) * den = q * (den * 2 ^ k) := by
    rw [lowMagnitude_scaled hq.le hnormal]; ring
  have habove : lowMagnitude (k * 2 ^ 23 + q + 1) * den = q * (den * 2 ^ k) + den * 2 ^ k := by
    rw [add_assoc, lowMagnitude_scaled (q := q + 1) hq (by omega)]; ring
  refine ⟨k * 2 ^ 23 + q, by omega, by omega, ?_⟩
  rw [hbelow]
  split
  · exact .inr ⟨by omega, rfl⟩
  · exact .inl (by rw [add_zero])

theorem roundNearest_le_infBits (num den : Nat) : roundNearest num den ≤ infBits :=
  min_le_right _ _

/-- Rounding does not pass a binary32 value from below. -/
theorem roundNearest_le {num den c : Nat} (hden : 0 < den) (h : num ≤ lowMagnitude c * den) :
    roundNearest num den ≤ c := by
  obtain ⟨b, hb, -, hround | ⟨hlt, hround⟩⟩ := roundNearest_cases num hden
  · have hbc : b ≤ c :=
      lowMagnitude_strictMono.le_iff_le.1 (Nat.le_of_mul_le_mul_right (hb.trans h) hden)
    exact hround ▸ (min_le_left _ _).trans hbc
  · have hbc : b < c :=
      lowMagnitude_strictMono.lt_iff_lt.1 (Nat.lt_of_mul_lt_mul_right (hlt.trans_le h))
    exact hround ▸ (min_le_left _ _).trans hbc

/-- Rounding does not pass a binary32 value from above. -/
theorem le_roundNearest {num den c : Nat} (hden : 0 < den) (hc : c ≤ infBits)
    (h : lowMagnitude c * den ≤ num) : c ≤ roundNearest num den := by
  obtain ⟨b, -, hb, hround⟩ := roundNearest_cases num hden
  have hcb : c < b + 1 :=
    lowMagnitude_strictMono.lt_iff_lt.1 (Nat.lt_of_mul_lt_mul_right (h.trans_lt hb))
  obtain hround | ⟨-, hround⟩ := hround <;> rw [hround] <;> exact le_min (by omega) hc

theorem roundNearest_zero {den : Nat} (hden : 0 < den) : roundNearest 0 den = 0 :=
  Nat.le_zero.1 (roundNearest_le hden (Nat.zero_le _))

/-- A binary32 value is rounded to itself. -/
theorem roundNearest_lowMagnitude {c : Nat} (hc : c ≤ infBits) :
    roundNearest (lowMagnitude c) 1 = c :=
  (roundNearest_le one_pos (mul_one _).ge).antisymm (le_roundNearest one_pos hc (mul_one _).le)

end Sys2Proof.Machine
end

section
/-! What `fadd32` and a division by 5.0 answer, in signs and low bits (spec/40_smoothing.md R101,
R104). -/

namespace Sys2Proof.Machine

/-! ### The value of a finite Sample -/

theorem natAbs_finiteValue (x : Sample) : (finiteValue x).natAbs = lowMagnitude (lowBits x) := by
  rw [finiteValue, magnitude_eq]
  split <;> simp

theorem finiteValue_of_signBit_false {x : Sample} (h : signBit x = false) :
    finiteValue x = lowMagnitude (lowBits x) := by
  simp [finiteValue, h, magnitude_eq]

theorem finiteValue_of_signBit_true {x : Sample} (h : signBit x = true) :
    finiteValue x = -(lowMagnitude (lowBits x) : Int) := by
  simp [finiteValue, h, magnitude_eq]

@[simp] theorem lowMagnitude_zero : lowMagnitude 0 = 0 := rfl

theorem lowMagnitude_eq_zero_iff {c : Nat} : lowMagnitude c = 0 ↔ c = 0 :=
  lowMagnitude_strictMono.injective.eq_iff' rfl

theorem finiteValue_eq_zero_iff {x : Sample} : finiteValue x = 0 ↔ lowBits x = 0 := by
  rw [← Int.natAbs_eq_zero, natAbs_finiteValue, lowMagnitude_eq_zero_iff]

theorem finiteValue_pos_iff {x : Sample} :
    0 < finiteValue x ↔ signBit x = false ∧ lowBits x ≠ 0 := by
  cases hs : signBit x with
  | true =>
    rw [finiteValue_of_signBit_true hs]
    simp
  | false =>
    rw [finiteValue_of_signBit_false hs, Ne, ← lowMagnitude_eq_zero_iff]
    simp [Nat.pos_iff_ne_zero]

theorem finiteValue_negate (x : Sample) : finiteValue (negate x) = -finiteValue x := by
  cases hs : signBit x <;>
    simp [finiteValue, signBit_negate, magnitude_eq, lowBits_negate, hs]

/-! ### Addition -/

section
variable {a b : Sample}

theorem fadd32_of_isFinite (ha : IsFinite a) (hb : IsFinite b) :
    fadd32 a b =
      packSample (if finiteValue a + finiteValue b = 0 then signBit a && signBit b
        else decide (finiteValue a + finiteValue b < 0))
        (roundNearest (finiteValue a + finiteValue b).natAbs 1) := by
  obtain ⟨hna, hia⟩ := isFinite_iff.1 ha
  obtain ⟨hnb, hib⟩ := isFinite_iff.1 hb
  by_cases hs : finiteValue a + finiteValue b = 0
  · simp [fadd32, hna, hia, hnb, hib, hs, roundNearest_zero one_pos]
  · simp [fadd32, hna, hia, hnb, hib, hs]

theorem lowBits_fadd32 (ha : IsFinite a) (hb : IsFinite b) :
    lowBits (fadd32 a b) = roundNearest (finiteValue a + finiteValue b).natAbs 1 := by
  rw [fadd32_of_isFinite ha hb, lowBits_packSample (roundNearest_le_infBits _ _)]

theorem signBit_fadd32 (ha : IsFinite a) (hb : IsFinite b) :
    signBit (fadd32 a b) = if finiteValue a + finiteValue b = 0 then signBit a && signBit b
      else decide (finiteValue a + finiteValue b < 0) := by
  rw [fadd32_of_isFinite ha hb, signBit_packSample (roundNearest_le_infBits _ _)]

theorem lowBits_fadd32_le_infBits (ha : IsFinite a) (hb : IsFinite b) :
    lowBits (fadd32 a b) ≤ infBits := by
  rw [lowBits_fadd32 ha hb]
  exact roundNearest_le_infBits _ _

theorem fadd32_of_isInf_right (ha : IsFinite a) (hb : isInf b = true) : fadd32 a b = b := by
  obtain ⟨hna, hia⟩ := isFinite_iff.1 ha
  simp [fadd32, hna, hia, hb, isNaN_eq_false_of_isInf hb]

theorem fadd32_of_isInf_left_of_same_sign (ha : isInf a = true) (hb : isNaN b = false)
    (hsign : isInf b = true → signBit b = signBit a) : fadd32 a b = a := by
  obtain ⟨heq, -⟩ | ⟨-, hnan | ⟨hinf, hne⟩⟩ := fadd32_of_isInf_left (b := b) ha
  · exact heq
  · simp [hb] at hnan
  · exact absurd (hsign hinf) hne

/-- A sum of no NaN and not of infinities of both signs: two finite operands, or the infinite one
is the result. -/
theorem fadd32_cases (ha : isNaN a = false) (hb : isNaN b = false)
    (hsign : isInf a = true → isInf b = true → signBit a = signBit b) :
    (IsFinite a ∧ IsFinite b) ∨ (isInf a = true ∧ fadd32 a b = a) ∨
      (isInf b = true ∧ fadd32 a b = b) := by
  obtain hfa | hia := isFinite_or_isInf ha
  · obtain hfb | hib := isFinite_or_isInf hb
    · exact .inl ⟨hfa, hfb⟩
    · exact .inr (.inr ⟨hib, fadd32_of_isInf_right hfa hib⟩)
  · exact .inr (.inl
      ⟨hia, fadd32_of_isInf_left_of_same_sign hia hb fun hib => (hsign hia hib).symm⟩)

/-- A sum that binary32 has is exact (R105). -/
theorem fadd32_exact {c : Nat} (ha : IsFinite a) (hb : IsFinite b)
    (hc : c < infBits) (hsum : (finiteValue a + finiteValue b).natAbs = lowMagnitude c) :
    IsFinite (fadd32 a b) ∧ finiteValue (fadd32 a b) = finiteValue a + finiteValue b := by
  have hlow : lowBits (fadd32 a b) = c := by
    rw [lowBits_fadd32 ha hb, hsum, roundNearest_lowMagnitude hc.le]
  refine ⟨hlow.trans_lt hc, ?_⟩
  have hsign := signBit_fadd32 ha hb
  by_cases hs : finiteValue a + finiteValue b = 0
  · have habs := natAbs_finiteValue (fadd32 a b)
    rw [hlow, ← hsum, hs] at habs
    rw [hs]
    exact Int.natAbs_eq_zero.1 habs
  · rw [if_neg hs] at hsign
    rw [finiteValue, magnitude_eq, hlow, ← hsum, hsign]
    simp only [decide_eq_true_eq]
    split <;> omega

end

/-! ### Division by 5.0 -/

section
variable {a : Sample}

theorem isNaN_fdiv32_of_isNaN (h : isNaN a = true) : isNaN (fdiv32 a five) = true := by
  simp [fdiv32, h]

theorem fdiv32_five_of_isInf (h : isInf a = true) : fdiv32 a five = a := by
  have hfive : isNaN five = false ∧ isInf five = false ∧ signBit five = false := by decide
  have hpack : fdiv32 a five = packSample (signBit a) infBits := by
    simp [fdiv32, h, isNaN_eq_false_of_isInf h, hfive]
  refine hpack.trans (eq_of_signBit_eq_of_lowBits_eq (signBit_packSample le_rfl) ?_)
  rw [lowBits_packSample le_rfl, isInf_iff.1 h]

theorem magnitude_five : magnitude five = 5 * 2 ^ 149 := by decide

theorem fdiv32_five_of_isFinite (h : IsFinite a) :
    fdiv32 a five =
      packSample (signBit a) (roundNearest (lowMagnitude (lowBits a) * 2 ^ 149) (5 * 2 ^ 149)) := by
  have hfive : isNaN five = false ∧ isInf five = false ∧ isZero five = false ∧
    signBit five = false := by decide
  obtain ⟨hn, hi⟩ := isFinite_iff.1 h
  simp only [fdiv32, hn, hi, hfive, magnitude_five, magnitude_eq a, Bool.or_self, if_false,
    Bool.false_eq_true, Bool.bne_false]

theorem signBit_fdiv32_five (h : IsFinite a) : signBit (fdiv32 a five) = signBit a := by
  rw [fdiv32_five_of_isFinite h, signBit_packSample (roundNearest_le_infBits _ _)]

theorem lowBits_fdiv32_five (h : IsFinite a) :
    lowBits (fdiv32 a five) =
      roundNearest (lowMagnitude (lowBits a) * 2 ^ 149) (5 * 2 ^ 149) := by
  rw [fdiv32_five_of_isFinite h, lowBits_packSample (roundNearest_le_infBits _ _)]

theorem lowBits_fdiv32_five_of_zero (h : lowBits a = 0) : lowBits (fdiv32 a five) = 0 := by
  have hfin : IsFinite a := by rw [IsFinite, h]; decide
  rw [lowBits_fdiv32_five hfin, h, lowMagnitude_zero, zero_mul, roundNearest_zero (by positivity)]

/-- From five of the least units of binary32 up the quotient does not underflow to zero (R102). -/
theorem one_le_lowBits_fdiv32_five (hfin : IsFinite a) (h : 5 ≤ lowBits a) :
    1 ≤ lowBits (fdiv32 a five) := by
  have hmag : 5 ≤ lowMagnitude (lowBits a) :=
    (lowMagnitude_of_le (by decide)).ge.trans (lowMagnitude_strictMono.monotone h)
  rw [lowBits_fdiv32_five hfin]
  refine le_roundNearest (by positivity) (by decide) ?_
  rw [lowMagnitude_of_le (by decide), one_mul]
  exact Nat.mul_le_mul_right _ hmag

theorem isNaN_fdiv32_five_of_isFinite (h : IsFinite a) : isNaN (fdiv32 a five) = false := by
  rw [isNaN_eq_false_iff, lowBits_fdiv32_five h]
  exact roundNearest_le_infBits _ _

theorem isNaN_fdiv32_five : isNaN (fdiv32 a five) = isNaN a := by
  cases hn : isNaN a with
  | true => exact isNaN_fdiv32_of_isNaN hn
  | false =>
    obtain hfin | hinf := isFinite_or_isInf hn
    · exact isNaN_fdiv32_five_of_isFinite hfin
    · rw [fdiv32_five_of_isInf hinf, hn]

end

end Sys2Proof.Machine
end

section
/-! The sign of MEAN5 (spec/40_smoothing.md R102, R105, R106). -/

namespace Sys2Proof.Machine

variable {a b : Sample}

/-! ### Samples above zero (P1) -/

/-- Positive, perhaps infinite, and at least `k` of the least units of binary32, for small `k`. -/
def IsAtLeast (k : Nat) (x : Sample) : Prop :=
  signBit x = false ∧ k ≤ lowBits x ∧ lowBits x ≤ infBits

theorem fgt0_iff_isAtLeast {x : Sample} : fgt0 x = true ↔ IsAtLeast 1 x := by
  rw [fgt0_iff, IsAtLeast, Nat.one_le_iff_ne_zero]

theorem IsAtLeast.add {i j : Nat} (ha : IsAtLeast i a) (hb : IsAtLeast j b)
    (hij : i + j ≤ 2 ^ 24) : IsAtLeast (i + j) (fadd32 a b) := by
  obtain ⟨hsa, hia, hla⟩ := ha
  obtain ⟨hsb, hjb, hlb⟩ := hb
  have hna := isNaN_eq_false_iff.2 hla
  have hnb := isNaN_eq_false_iff.2 hlb
  have hinf {c : Sample} (hs : signBit c = false) (hc : isInf c = true) : IsAtLeast (i + j) c := by
    rw [IsAtLeast, isInf_iff.1 hc]
    exact ⟨hs, hij.trans (by decide), le_rfl⟩
  obtain ⟨hfa, hfb⟩ | ⟨hi, heq⟩ | ⟨hi, heq⟩ := fadd32_cases hna hnb fun _ _ => hsa.trans hsb.symm
  · have hsum : finiteValue a + finiteValue b =
        (lowMagnitude (lowBits a) + lowMagnitude (lowBits b) : Nat) := by
      rw [finiteValue_of_signBit_false hsa, finiteValue_of_signBit_false hsb, Nat.cast_add]
    refine ⟨?_, ?_, lowBits_fadd32_le_infBits hfa hfb⟩
    · rw [signBit_fadd32 hfa hfb, hsum, hsa]
      split
      · rfl
      · exact decide_eq_false (by omega)
    · have hi := lowMagnitude_strictMono.monotone hia
      have hj := lowMagnitude_strictMono.monotone hjb
      rw [lowBits_fadd32 hfa hfb, hsum, Int.natAbs_natCast]
      refine le_roundNearest one_pos (hij.trans (by decide)) ?_
      rw [lowMagnitude_of_le (by omega)] at hi hj ⊢
      omega
  · rw [heq]
    exact hinf hsa hi
  · rw [heq]
    exact hinf hsb hi

theorem IsAtLeast.fdiv32_five (ha : IsAtLeast 5 a) : fgt0 (fdiv32 a five) = true := by
  obtain ⟨hsign, hfive, hlow⟩ := ha
  obtain hfin | hinf := isFinite_or_isInf (isNaN_eq_false_iff.2 hlow)
  · refine fgt0_iff_isAtLeast.2 ⟨?_, one_le_lowBits_fdiv32_five hfin hfive, ?_⟩
    · rw [signBit_fdiv32_five hfin, hsign]
    · exact isNaN_eq_false_iff.1 (isNaN_fdiv32_five_of_isFinite hfin)
  · rw [fdiv32_five_of_isInf hinf]
    exact fgt0_iff_isAtLeast.2 ⟨hsign, by omega, hlow⟩

/-- Settles O29: each sample adds at least one least unit, so five of them reach the sum. -/
theorem meanOfPositivesIsPositive : Obligations.MeanOfPositivesIsPositive := by
  intro h0 h1 h2 h3 x p0 p1 p2 p3 p4
  rw [fgt0_iff_isAtLeast] at p0 p1 p2 p3 p4
  have t1 : IsAtLeast 2 (fadd32 h0 h1) := p0.add p1 (by decide)
  have t2 : IsAtLeast 3 (fadd32 (fadd32 h0 h1) h2) := t1.add p2 (by decide)
  have t3 : IsAtLeast 4 (fadd32 (fadd32 (fadd32 h0 h1) h2) h3) := t2.add p3 (by decide)
  exact (t3.add p4 (by decide)).fdiv32_five

/-! ### Samples at or below zero (P2) -/

/-- No NaN, and negative or a zero of either sign. -/
def IsNonPositive (x : Sample) : Prop :=
  lowBits x ≤ infBits ∧ (signBit x = true ∨ lowBits x = 0)

theorem isNonPositive_iff {x : Sample} :
    IsNonPositive x ↔ isNaN x = false ∧ fgt0 x = false := by
  rw [← Bool.not_eq_true (fgt0 x), fgt0_iff, isNaN_eq_false_iff, IsNonPositive,
    ← Bool.not_eq_false (signBit x)]
  tauto

theorem IsNonPositive.signBit_of_isInf (h : IsNonPositive a) (hinf : isInf a = true) :
    signBit a = true := by
  refine h.2.resolve_right ?_
  rw [isInf_iff.1 hinf]
  decide

theorem IsNonPositive.finiteValue_le (h : IsNonPositive a) : finiteValue a ≤ 0 := by
  cases hs : signBit a with
  | true => rw [finiteValue_of_signBit_true hs]; omega
  | false =>
    have hzero := h.2.resolve_left (by simp [hs])
    rw [finiteValue_of_signBit_false hs, hzero, lowMagnitude_zero, Nat.cast_zero]

theorem IsNonPositive.add (ha : IsNonPositive a) (hb : IsNonPositive b) :
    IsNonPositive (fadd32 a b) := by
  have hsign (hia : isInf a = true) (hib : isInf b = true) : signBit a = signBit b :=
    (ha.signBit_of_isInf hia).trans (hb.signBit_of_isInf hib).symm
  obtain ⟨hfa, hfb⟩ | ⟨-, heq⟩ | ⟨-, heq⟩ :=
    fadd32_cases (isNaN_eq_false_iff.2 ha.1) (isNaN_eq_false_iff.2 hb.1) hsign
  · refine ⟨lowBits_fadd32_le_infBits hfa hfb, ?_⟩
    have hle := add_nonpos ha.finiteValue_le hb.finiteValue_le
    obtain hlt | hzero := hle.lt_or_eq
    · left
      rw [signBit_fadd32 hfa hfb, if_neg hlt.ne]
      exact decide_eq_true hlt
    · right
      rw [lowBits_fadd32 hfa hfb, hzero, Int.natAbs_zero, roundNearest_zero one_pos]
  · rwa [heq]
  · rwa [heq]

theorem IsNonPositive.fdiv32_five (h : IsNonPositive a) : IsNonPositive (fdiv32 a five) := by
  obtain hfin | hinf := isFinite_or_isInf (isNaN_eq_false_iff.2 h.1)
  · refine ⟨isNaN_eq_false_iff.1 (isNaN_fdiv32_five_of_isFinite hfin), ?_⟩
    exact h.2.imp (signBit_fdiv32_five hfin).trans lowBits_fdiv32_five_of_zero
  · rwa [fdiv32_five_of_isInf hinf]

/-- Settles O30: sums of such samples are such samples, and so is a fifth of one. -/
theorem meanOfNonPositivesIsNonPositive : Obligations.MeanOfNonPositivesIsNonPositive := by
  intro h0 h1 h2 h3 x h
  simp only [← isNonPositive_iff, List.forall_mem_cons] at h
  obtain ⟨p0, p1, p2, p3, p4, -⟩ := h
  exact isNonPositive_iff.1 ((((p0.add p1).add p2).add p3).add p4).fdiv32_five

/-! ### Multiples of one unit (P3) -/

/-- R102 P3: the sign of a sum that is zero or at least five of the least units of binary32 is the
sign of its fifth. -/
theorem fdiv32_five_sign (hfin : IsFinite a) (h : lowBits a = 0 ∨ 5 ≤ lowBits a) :
    isNaN (fdiv32 a five) = false ∧ (fgt0 (fdiv32 a five) = true ↔ 0 < finiteValue a) ∧
      (isZero (fdiv32 a five) = true ↔ finiteValue a = 0) := by
  have hzero : lowBits (fdiv32 a five) = 0 ↔ lowBits a = 0 := by
    obtain h | h := h
    · exact iff_of_true (lowBits_fdiv32_five_of_zero h) h
    · have := one_le_lowBits_fdiv32_five hfin h
      omega
  have hnan := isNaN_fdiv32_five_of_isFinite hfin
  refine ⟨hnan, ?_, ?_⟩
  · rw [fgt0_iff, signBit_fdiv32_five hfin, Ne, hzero, finiteValue_pos_iff]
    simp [isNaN_eq_false_iff.1 hnan]
  · rw [isZero_iff, hzero, finiteValue_eq_zero_iff]

/-- A whole number of 24 bits in units that binary32 reaches, as finite low bits. -/
theorem exists_lowMagnitude_eq_lt {q j : Nat} (hq : q < 2 ^ 24) (hj : j ≤ 253) :
    ∃ c < infBits, lowMagnitude c = q * 2 ^ j := by
  obtain ⟨c, hc⟩ := exists_lowMagnitude_eq hq.le j
  refine ⟨c, lowMagnitude_strictMono.lt_iff_lt.1 ?_, hc⟩
  rw [hc, lowMagnitude_infBits]
  exact Nat.mul_lt_mul_of_lt_of_le hq (Nat.pow_le_pow_right two_pos hj) (Nat.two_pow_pos _)

/-- `x` is finite and equals `n` units of 2^(j-149). -/
def IsUnits (j : Nat) (n : Int) (x : Sample) : Prop := IsFinite x ∧ finiteValue x = n * 2 ^ j

theorem isUnits_of_isMultiple {j : Nat} {n : Int} {x : Sample} (h : IsMultiple j n x) :
    IsUnits j n x ∧ n.natAbs ≤ 2 ^ 21 := by
  obtain ⟨hnan, hinf, hval, hbound⟩ := h
  exact ⟨⟨isFinite_iff.2 ⟨hnan, hinf⟩, hval⟩, hbound⟩

/-- R105: a partial sum below 2^24 units is exact. -/
theorem IsUnits.add {j : Nat} {n m : Int} (ha : IsUnits j n a) (hb : IsUnits j m b)
    (hj : j ≤ 253) (hsum : (n + m).natAbs < 2 ^ 24) : IsUnits j (n + m) (fadd32 a b) := by
  obtain ⟨hfa, hva⟩ := ha
  obtain ⟨hfb, hvb⟩ := hb
  obtain ⟨c, hc, hmag⟩ := exists_lowMagnitude_eq_lt hsum hj
  have hval : finiteValue a + finiteValue b = (n + m) * 2 ^ j := by rw [hva, hvb, add_mul]
  have habs : (finiteValue a + finiteValue b).natAbs = lowMagnitude c := by
    rw [hval, Int.natAbs_mul, Int.natAbs_pow, hmag]
    rfl
  obtain ⟨hfin, hexact⟩ := fadd32_exact hfa hfb hc habs
  exact ⟨hfin, hexact.trans hval⟩

theorem IsUnits.lowBits_eq_zero_or_five_le {j : Nat} {n : Int} (h : IsUnits j n a) (hj : 3 ≤ j) :
    lowBits a = 0 ∨ 5 ≤ lowBits a := by
  obtain ⟨-, hval⟩ := h
  obtain rfl | hn := eq_or_ne n 0
  · exact .inl (finiteValue_eq_zero_iff.1 (by rw [hval, zero_mul]))
  · right
    have hmag : lowMagnitude (lowBits a) = n.natAbs * 2 ^ j := by
      rw [← natAbs_finiteValue, hval, Int.natAbs_mul, Int.natAbs_pow]
      rfl
    have hpow : 2 ^ 3 ≤ 2 ^ j := Nat.pow_le_pow_right two_pos hj
    rw [← lowMagnitude_strictMono.le_iff_le, hmag, lowMagnitude_of_le (by decide)]
    calc 5 ≤ 2 ^ j := by omega
      _ ≤ n.natAbs * 2 ^ j := Nat.le_mul_of_pos_left _ (Int.natAbs_pos.2 hn)

/-- Settles O32: every partial sum is exact, and the exact sum is zero or eight least units. -/
theorem meanHasTheSignOfTheExactSum : Obligations.MeanHasTheSignOfTheExactSum := by
  intro j n0 n1 n2 n3 n4 h0 h1 h2 h3 x hj3 hj p0 p1 p2 p3 p4
  obtain ⟨u0, b0⟩ := isUnits_of_isMultiple p0
  obtain ⟨u1, b1⟩ := isUnits_of_isMultiple p1
  obtain ⟨u2, b2⟩ := isUnits_of_isMultiple p2
  obtain ⟨u3, b3⟩ := isUnits_of_isMultiple p3
  obtain ⟨u4, b4⟩ := isUnits_of_isMultiple p4
  have t1 := u0.add u1 hj (by omega)
  have t2 := t1.add u2 hj (by omega)
  have t3 := t2.add u3 hj (by omega)
  have t4 := t3.add u4 hj (by omega)
  obtain ⟨hnan, hpos, hzero⟩ := fdiv32_five_sign t4.1 (t4.lowBits_eq_zero_or_five_le hj3)
  have hunit : (0 : Int) < 2 ^ j := by positivity
  refine ⟨hnan, hpos.trans ?_, hzero.trans ?_⟩
  · rw [t4.2, mul_pos_iff_of_pos_right hunit]
  · rw [t4.2, mul_eq_zero_iff_right hunit.ne']

/-! ### The polarity on a two-level signal -/

theorem isMultiple_negate {j : Nat} {n : Int} {x : Sample} (h : IsMultiple j n x) :
    IsMultiple j (-n) (negate x) := by
  obtain ⟨hnan, hinf, hval, hbound⟩ := h
  refine ⟨?_, ?_, ?_, ?_⟩
  · rw [isNaN_negate, hnan]
  · rw [isInf_negate, hinf]
  · rw [finiteValue_negate, hval, neg_mul]
  · rwa [Int.natAbs_neg]

theorem polar_eq_pos_iff {y : Sample} : polar y = .pos ↔ fgt0 y = true := by
  cases h : fgt0 y <;> simp [polar, polarBy, h]

theorem polar_eq_neg_iff {y : Sample} : polar y = .neg ↔ fgt0 y = false := by
  cases h : fgt0 y <;> simp [polar, polarBy, h]

/-- R105: within its window the polarity is "the exact sum is greater than zero". -/
theorem polar_mean5_of_isMultiple {j : Nat} {n0 n1 n2 n3 n4 : Int} {h0 h1 h2 h3 x : Sample}
    (hj3 : 3 ≤ j) (hj : j ≤ 253) (p0 : IsMultiple j n0 h0) (p1 : IsMultiple j n1 h1)
    (p2 : IsMultiple j n2 h2) (p3 : IsMultiple j n3 h3) (p4 : IsMultiple j n4 x) :
    polar (mean5 h0 h1 h2 h3 x) = if 0 < n0 + n1 + n2 + n3 + n4 then .pos else .neg := by
  obtain ⟨-, hpos, -⟩ :=
    meanHasTheSignOfTheExactSum j n0 n1 n2 n3 n4 h0 h1 h2 h3 x hj3 hj p0 p1 p2 p3 p4
  split
  · rwa [polar_eq_pos_iff, hpos]
  · rwa [polar_eq_neg_iff, ← Bool.not_eq_true, hpos]

/-- Settles O34: the sums of the six windows are 3, 1, -1, -3, -1 and 1 times the level. -/
theorem polarityTurnsTwoSamplesLate : Obligations.PolarityTurnsTwoSamplesLate := by
  intro j n a hj3 hj hn p
  have q := isMultiple_negate p
  refine ⟨?_, ?_, ?_, ?_, ?_, ?_⟩
  · exact (polar_mean5_of_isMultiple hj3 hj p p p p q).trans (if_pos (by omega))
  · exact (polar_mean5_of_isMultiple hj3 hj p p p q q).trans (if_pos (by omega))
  · exact (polar_mean5_of_isMultiple hj3 hj p p q q q).trans (if_neg (by omega))
  · exact (polar_mean5_of_isMultiple hj3 hj q q q q p).trans (if_neg (by omega))
  · exact (polar_mean5_of_isMultiple hj3 hj q q q p p).trans (if_neg (by omega))
  · exact (polar_mean5_of_isMultiple hj3 hj q q p p p).trans (if_pos (by omega))

end Sys2Proof.Machine
end

section
/-! MEAN5 of NaNs, infinities and zeros (spec/40_smoothing.md R101, R104; log entry 17). -/

namespace Sys2Proof.Machine

variable {a b i y : Sample} {ys : List Sample}

/-- R101: the ordered sum is a fold from the oldest sample. -/
theorem mean5_eq_foldl (h0 h1 h2 h3 x : Sample) :
    mean5 h0 h1 h2 h3 x = fdiv32 ([h1, h2, h3, x].foldl fadd32 h0) five := rfl

/-- What `fadd32` keeps of its left operand, and has of any sum with `y`, is had of every ordered
sum over a window with `y` in it. -/
theorem foldl_fadd32_of_mem {Q : Sample → Prop} (hleft : ∀ a b, Q a → Q (fadd32 a b))
    (hy : Q y) (hright : ∀ a, Q (fadd32 a y)) (hmem : y ∈ a :: ys) : Q (ys.foldl fadd32 a) := by
  have hkeep {a : Sample} {ys : List Sample} (h : Q a) : Q (ys.foldl fadd32 a) :=
    List.foldlRecOn ys fadd32 h fun b hb z _ => hleft b z hb
  induction ys generalizing a with
  | nil => exact List.mem_singleton.1 hmem ▸ hy
  | cons z zs ih =>
    rw [List.foldl_cons]
    obtain rfl | rfl | hzs : y = a ∨ y = z ∨ y ∈ zs := by simpa using hmem
    · exact hkeep (hleft y z hy)
    · exact hkeep (hright a)
    · exact ih (List.mem_cons_of_mem _ hzs)

theorem isNaN_foldl_fadd32 (hy : isNaN y = true) (hmem : y ∈ a :: ys) :
    isNaN (ys.foldl fadd32 a) = true :=
  foldl_fadd32_of_mem (Q := fun t => isNaN t = true) (fun _ _ h => isNaN_fadd32_of_isNaN (.inl h))
    hy (fun _ => isNaN_fadd32_of_isNaN (.inr hy)) hmem

/-! ### An infinity in the window -/

/-- What R104 leaves a sum with the infinity `i` in it. -/
def IsInfOrNaN (i t : Sample) : Prop := t = i ∨ isNaN t = true

theorem IsInfOrNaN.add (hi : isInf i = true) (h : IsInfOrNaN i a) (b : Sample) :
    IsInfOrNaN i (fadd32 a b) := by
  obtain rfl | hnan := h
  · obtain ⟨heq, -⟩ | ⟨hnan, -⟩ := fadd32_of_isInf_left (b := b) hi
    · exact .inl heq
    · exact .inr hnan
  · exact .inr (isNaN_fadd32_of_isNaN (.inl hnan))

theorem isInfOrNaN_fadd32_right (hi : isInf i = true) (a : Sample) :
    IsInfOrNaN i (fadd32 a i) := by
  cases hnan : isNaN a with
  | true => exact .inr (isNaN_fadd32_of_isNaN (.inl hnan))
  | false =>
    obtain hfin | hinf := isFinite_or_isInf hnan
    · exact .inl (fadd32_of_isInf_right hfin hi)
    · obtain ⟨heq, -, hsign⟩ | ⟨hnan, -⟩ := fadd32_of_isInf_left (b := i) hinf
      · refine .inl (heq.trans (eq_of_signBit_eq_of_lowBits_eq (hsign hi).symm ?_))
        rw [isInf_iff.1 hinf, isInf_iff.1 hi]
      · exact .inr hnan

theorem isInfOrNaN_foldl_fadd32 (hi : isInf i = true) (hmem : i ∈ a :: ys) :
    IsInfOrNaN i (ys.foldl fadd32 a) :=
  foldl_fadd32_of_mem (fun _ b h => h.add hi b) (.inl rfl) (isInfOrNaN_fadd32_right hi) hmem

theorem negate_ne (x : Sample) : negate x ≠ x := by
  intro h
  simpa [signBit_negate] using congrArg signBit h

/-- What is one infinity or a NaN, and the other infinity or a NaN, is a NaN. -/
theorem IsInfOrNaN.isNaN_of_negate (h : IsInfOrNaN i a) (hneg : IsInfOrNaN (negate i) a) :
    isNaN a = true := by
  obtain rfl | hnan := h
  · exact hneg.resolve_left (negate_ne a).symm
  · exact hnan

/-- Where neither operand is a NaN or the infinity opposite to `i`, the sum is no NaN. -/
theorem isNaN_fadd32_eq_false (hi : isInf i = true) (ha : isNaN a = false) (hai : a ≠ negate i)
    (hb : isNaN b = false) (hbi : b ≠ negate i) : isNaN (fadd32 a b) = false := by
  have hsame {c : Sample} (hc : isInf c = true) (hci : c ≠ negate i) : c = i :=
    (eq_or_eq_negate_of_isInf hc hi).resolve_right hci
  have hsign (hia : isInf a = true) (hib : isInf b = true) : signBit a = signBit b := by
    rw [hsame hia hai, hsame hib hbi]
  obtain ⟨hfa, hfb⟩ | ⟨-, heq⟩ | ⟨-, heq⟩ := fadd32_cases ha hb hsign
  · exact isNaN_eq_false_iff.2 (lowBits_fadd32_le_infBits hfa hfb)
  · rwa [heq]
  · rwa [heq]

/-! ### An infinity beside moderate samples -/

/-- Finite, and at most `m` times 2^125 in magnitude. -/
def IsModerateSum (m : Nat) (x : Sample) : Prop :=
  IsFinite x ∧ lowMagnitude (lowBits x) ≤ m * 2 ^ 21 * 2 ^ 253

theorem IsModerate.isModerateSum {x : Sample} (h : IsModerate x) : IsModerateSum 1 x := by
  rw [IsModerate, expField_eq] at h
  have hlow : lowBits x ≤ 251 * 2 ^ 23 + 2 ^ 23 := by omega
  refine ⟨hlow.trans_lt (by decide), (lowMagnitude_strictMono.monotone hlow).trans ?_⟩
  rw [lowMagnitude_scaled (by decide) (.inr le_rfl)]
  decide

/-- So few moderate samples add up without overflow. -/
theorem IsModerateSum.add {m : Nat} (ha : IsModerateSum m a) (hb : IsModerateSum 1 b)
    (hm : m + 1 ≤ 4) : IsModerateSum (m + 1) (fadd32 a b) := by
  obtain ⟨hfa, hma⟩ := ha
  obtain ⟨hfb, hmb⟩ := hb
  have hq : (m + 1) * 2 ^ 21 < 2 ^ 24 := by omega
  obtain ⟨c, hc, hmag⟩ := exists_lowMagnitude_eq_lt hq le_rfl
  have hsum : (finiteValue a + finiteValue b).natAbs ≤ lowMagnitude c := by
    calc (finiteValue a + finiteValue b).natAbs
        ≤ (finiteValue a).natAbs + (finiteValue b).natAbs := Int.natAbs_add_le _ _
      _ ≤ m * 2 ^ 21 * 2 ^ 253 + 1 * 2 ^ 21 * 2 ^ 253 := by
        rw [natAbs_finiteValue, natAbs_finiteValue]
        exact Nat.add_le_add hma hmb
      _ = lowMagnitude c := by rw [hmag, ← add_mul, ← add_mul]
  have hlow : lowBits (fadd32 a b) ≤ c := by
    rw [lowBits_fadd32 hfa hfb]
    exact roundNearest_le one_pos (by rwa [mul_one])
  exact ⟨hlow.trans_lt hc, (lowMagnitude_strictMono.monotone hlow).trans hmag.le⟩

theorem fadd32_inf_left (hi : isInf i = true) (hy : y = i ∨ IsModerate y) : fadd32 i y = i := by
  obtain rfl | hmod := hy
  · exact fadd32_of_isInf_left_of_same_sign hi (isNaN_eq_false_of_isInf hi) fun _ => rfl
  · obtain ⟨hnan, hinf⟩ := isFinite_iff.1 hmod.isModerateSum.1
    exact fadd32_of_isInf_left_of_same_sign hi hnan fun h => by simp [hinf] at h

/-- Up to four moderate samples do not overflow before the infinity comes, and nothing after it
changes it. -/
theorem foldl_fadd32_eq_inf {m : Nat} (hi : isInf i = true)
    (ha : a = i ∨ (IsModerateSum m a ∧ i ∈ ys)) (hlen : m + ys.length ≤ 5)
    (hys : ∀ y ∈ ys, y = i ∨ IsModerate y) : ys.foldl fadd32 a = i := by
  induction ys generalizing a m with
  | nil => simpa using ha
  | cons y ys ih =>
    obtain ⟨hy, hrest⟩ := List.forall_mem_cons.1 hys
    rw [List.length_cons] at hlen
    rw [List.foldl_cons]
    obtain rfl | ⟨hsum, hmem⟩ := ha
    · exact ih (m := m) (.inl (fadd32_inf_left hi hy)) (by omega) hrest
    · by_cases hyi : y = i
      · subst hyi
        exact ih (m := m) (.inl (fadd32_of_isInf_right hsum.1 hi)) (by omega) hrest
      · have hmod := (hy.resolve_left hyi).isModerateSum
        have hmem : i ∈ ys := List.mem_of_ne_of_mem (Ne.symm hyi) hmem
        have hpos := List.length_pos_of_mem hmem
        exact ih (.inr ⟨hsum.add hmod (by omega), hmem⟩) (by omega) hrest

/-! ### Which windows with infinities of one sign give a NaN -/

/-- The infinity itself and the other infinity both reach the sum, and their sum is a NaN; short
of that no partial sum is a NaN (log entry 17). -/
theorem isNaN_window_iff {h0 h1 h2 h3 x : Sample} (hi : isInf i = true)
    (hmem : i ∈ [h0, h1, h2, h3, x])
    (hall : ∀ y ∈ [h0, h1, h2, h3, x], isNaN y = false ∧ y ≠ negate i) :
    isNaN ([h1, h2, h3, x].foldl fadd32 h0) = true ↔
      negate i ∈ [fadd32 h0 h1, fadd32 (fadd32 h0 h1) h2,
        fadd32 (fadd32 (fadd32 h0 h1) h2) h3] := by
  constructor
  · contrapose
    intro hpartial
    simp only [List.mem_cons, List.not_mem_nil, or_false, not_or] at hpartial
    obtain ⟨ht1, ht2, ht3⟩ := hpartial
    simp only [List.forall_mem_cons] at hall
    obtain ⟨⟨n0, p0⟩, ⟨n1, p1⟩, ⟨n2, p2⟩, ⟨n3, p3⟩, ⟨n4, p4⟩, -⟩ := hall
    have m1 := isNaN_fadd32_eq_false hi n0 p0 n1 p1
    have m2 := isNaN_fadd32_eq_false hi m1 (Ne.symm ht1) n2 p2
    have m3 := isNaN_fadd32_eq_false hi m2 (Ne.symm ht2) n3 p3
    exact Bool.not_eq_true _ ▸ isNaN_fadd32_eq_false hi m3 (Ne.symm ht3) n4 p4
  · intro hpartial
    have hni : isInf (negate i) = true := by rw [isInf_negate, hi]
    have hneg {a : Sample} (ha : negate i = a) (ys : List Sample) :
        IsInfOrNaN (negate i) (ys.foldl fadd32 a) :=
      isInfOrNaN_foldl_fadd32 hni (ha ▸ List.mem_cons_self)
    refine (isInfOrNaN_foldl_fadd32 hi hmem).isNaN_of_negate ?_
    obtain h | h | h : _ ∨ _ ∨ _ := by simpa using hpartial
    · simpa only [List.foldl_cons] using hneg h [h2, h3, x]
    · simpa only [List.foldl_cons] using hneg h [h3, x]
    · simpa only [List.foldl_cons] using hneg h [x]

/-! ### Zeros -/

theorem isZero_fadd32 (ha : isZero a = true) (hb : isZero b = true) :
    isZero (fadd32 a b) = true := by
  have hfinite {c : Sample} (hc : isZero c = true) : IsFinite c := by
    rw [IsFinite, isZero_iff.1 hc]
    decide
  have hvalue {c : Sample} (hc : isZero c = true) : finiteValue c = 0 :=
    finiteValue_eq_zero_iff.2 (isZero_iff.1 hc)
  rw [isZero_iff, lowBits_fadd32 (hfinite ha) (hfinite hb), hvalue ha, hvalue hb]
  exact roundNearest_zero one_pos

theorem isInf_of_mem_infinities :
    ∀ i ∈ [0x7F800000#32, 0xFF800000#32], isInf i = true := by
  simp only [List.forall_mem_cons, List.not_mem_nil, false_imp_iff, implies_true, and_true]
  decide

/-- Settles O31: each clause is one about the ordered sum, which a division by 5.0 keeps. -/
theorem meanOfSpecialValues : Obligations.MeanOfSpecialValues := by
  intro h0 h1 h2 h3 x
  rw [mean5_eq_foldl]
  refine ⟨?nan, ?both, ?moderate, ?zeros, ?overflow, rfl⟩
  case nan =>
    rintro ⟨y, hmem, hy⟩
    exact isNaN_fdiv32_of_isNaN (isNaN_foldl_fadd32 hy hmem)
  case both =>
    intro hpos hneg
    have hinf : negate 0x7F800000#32 = 0xFF800000#32 := by decide
    rw [← hinf] at hneg
    rw [isNaN_fdiv32_five]
    exact (isInfOrNaN_foldl_fadd32 (by decide) hpos).isNaN_of_negate
      (isInfOrNaN_foldl_fadd32 (by decide) hneg)
  case moderate =>
    intro i hi hmem hall
    have hi := isInf_of_mem_infinities i hi
    obtain ⟨hfirst, hrest⟩ := List.forall_mem_cons.1 hall
    have hstart : h0 = i ∨ (IsModerateSum 1 h0 ∧ i ∈ [h1, h2, h3, x]) := by
      by_cases h : h0 = i
      · exact .inl h
      · exact .inr ⟨(hfirst.resolve_left h).isModerateSum, List.mem_of_ne_of_mem (Ne.symm h) hmem⟩
    rw [foldl_fadd32_eq_inf hi hstart le_rfl hrest, fdiv32_five_of_isInf hi]
  case zeros =>
    intro hall
    obtain ⟨hfirst, hrest⟩ := List.forall_mem_cons.1 hall
    have hsum : isZero ([h1, h2, h3, x].foldl fadd32 h0) = true :=
      List.foldlRecOn (motive := fun t => isZero t = true) _ fadd32 hfirst
        fun _ ht y hy => isZero_fadd32 ht (hrest y hy)
    exact isZero_iff.2 (lowBits_fdiv32_five_of_zero (isZero_iff.1 hsum))
  case overflow =>
    intro i hi hmem hall
    have hi := isInf_of_mem_infinities i hi
    rw [isNaN_fdiv32_five]
    refine ⟨?_, isNaN_window_iff hi hmem hall⟩
    refine (isInfOrNaN_foldl_fadd32 hi hmem).imp_left fun h => ?_
    rw [h, fdiv32_five_of_isInf hi]

end Sys2Proof.Machine
end

section
/-! The bit form of POLAR (spec/41_polarity.md R111): the fields of a Sample, which the model reads
as numbers, as slices of its bits. -/

namespace Sys2Proof.Machine

variable {y : Sample}

theorem lowBits_eq_toNat_extractLsb' (y : Sample) : lowBits y = (y.extractLsb' 0 31).toNat := by
  simp [lowBits]

theorem fracField_eq_toNat_extractLsb' (y : Sample) :
    fracField y = (y.extractLsb' 0 23).toNat := by
  simp [fracField]

theorem expField_eq_toNat_extractLsb' (y : Sample) :
    expField y = (y.extractLsb' 23 8).toNat := by
  simp [expField, Nat.shiftRight_eq_div_pow]

theorem isZero_iff_extractLsb' : isZero y = true ↔ y.extractLsb' 0 31 = 0#31 := by
  rw [isZero_iff, lowBits_eq_toNat_extractLsb', ← BitVec.toNat_inj]
  rfl

theorem isNaN_iff_extractLsb' :
    isNaN y = true ↔ y.extractLsb' 23 8 = 0xFF#8 ∧ y.extractLsb' 0 23 ≠ 0#23 := by
  rw [isNaN, expField_eq_toNat_extractLsb', fracField_eq_toNat_extractLsb', Bool.and_eq_true,
    beq_iff_eq, bne_iff_ne, ← BitVec.toNat_inj, Ne, Ne, ← BitVec.toNat_inj]
  rfl

theorem polar_eq_pos_iff_extractLsb' :
    polar y = .pos ↔ y.getLsbD 31 = false ∧ y.extractLsb' 0 31 ≠ 0#31 ∧
      ¬ (y.extractLsb' 23 8 = 0xFF#8 ∧ y.extractLsb' 0 23 ≠ 0#23) := by
  rw [polar_eq_pos_iff, ← isNaN_iff_extractLsb', Ne, ← isZero_iff_extractLsb']
  simp [fgt0, signBit, and_assoc]

theorem polar_of_isNaN (h : isNaN y = true) : polar y = .neg :=
  polar_eq_neg_iff.2 (fgt0_of_isNaN h)

/-- Settles O37: R111's three conditions are the sign, the zeros and the NaNs of `fgt0`, slice by
slice; the corner cases but the NaNs are fixed words. -/
theorem polarityFollowsTheBitForm : Obligations.PolarityFollowsTheBitForm := by
  refine ⟨fun y => polar_eq_pos_iff_extractLsb', ?_, ?_, ?_, ?_, ?_, fun y => polar_of_isNaN⟩
  · decide
  · decide
  · decide
  · decide
  · decide

end Sys2Proof.Machine
end

section
/-! Stage 3 over a whole chunk: the account of its widths and the count of a run
(spec/42_run_length.md R122). -/

namespace Sys2Proof.Machine

variable {v : Nat}

/-- RLE over a chunk that completes is its first symbol and then the others. -/
theorem rleAll_cons_ok_cases {r r' : RunStateOf v} {p : Pol} {ps : List Pol}
    {ws : List (BitVec v)} (h : rleAll r (p :: ps) = .ok (ws, r')) :
    ∃ o q rest, rle r p = .ok (o, q) ∧ rleAll q ps = .ok (rest, r') ∧ ws = o.toList ++ rest := by
  cases hr : rle r p with
  | error c => simp [rleAll, hr] at h
  | ok o =>
    rw [rleAll_cons ps hr] at h
    cases hps : rleAll o.2 ps with
    | error c => simp [hps, Except.map] at h
    | ok rest =>
      rw [hps] at h
      cases h
      exact ⟨o.1, o.2, rest.1, rfl, hps, rfl⟩

/-- One symbol either adds one to the count or turns the whole count into a width (R120). -/
theorem rle_ok_accounts {r r' : RunStateOf v} {p : Pol} {o : Option (BitVec v)}
    (h : rle r p = .ok (o, r')) :
    (o.toList.map BitVec.toNat).sum + r'.count.toNat + o.toList.length = r.count.toNat + 1 := by
  obtain ⟨-, hc, rfl, rfl⟩ | ⟨-, rfl, rfl⟩ := rle_ok_cases h
  · simpa using toNat_count_add_one hc
  · simp

/-- The account of one symbol, added up over a chunk (R122). -/
theorem rleAll_ok_accounts {r r' : RunStateOf v} {ps : List Pol} {ws : List (BitVec v)}
    (h : rleAll r ps = .ok (ws, r')) :
    (ws.map BitVec.toNat).sum + r'.count.toNat + ws.length = r.count.toNat + ps.length := by
  induction ps generalizing r ws with
  | nil =>
    cases h
    simp
  | cons p ps ih =>
    obtain ⟨o, q, rest, hp, hps, rfl⟩ := rleAll_cons_ok_cases h
    have first := rle_ok_accounts hp
    have others := ih hps
    simp only [List.map_append, List.sum_append, List.length_append, List.length_cons]
    omega

/-- Settles O39: the account of RLE over a chunk, for the counter of this hardware. -/
theorem runLengthsAccountForEverySymbol : Obligations.RunLengthsAccountForEverySymbol :=
  fun _ _ _ _ h => rleAll_ok_accounts h

/-- A held run that goes on emits nothing and counts every symbol, up to the counter's limit. -/
theorem rleAll_replicate_held (p : Pol) {N : Nat} {c : BitVec v} (h : c.toNat + N < 2 ^ v) :
    ∃ k : BitVec v, k.toNat = c.toNat + N ∧
      rleAll ⟨p.held, c⟩ (List.replicate N p) = .ok ([], ⟨p.held, k⟩) := by
  induction N generalizing c with
  | zero => exact ⟨c, rfl, rfl⟩
  | succ N ih =>
    have room : c.toNat ≠ countLimit v := by
      unfold countLimit
      omega
    have counted := toNat_count_add_one room
    obtain ⟨k, hk, hrun⟩ := ih (c := c + 1) (by omega)
    refine ⟨k, by omega, ?_⟩
    rw [List.replicate_succ, rleAll_cons _ (rle_same rfl room), hrun]
    rfl

/-- A symbol that is not held emits the count of the run before it, and the rest of its own run
is counted from zero. -/
theorem rleAll_replicate_new {r : RunStateOf v} {p : Pol} {N : Nat} (hp : p.held ≠ r.last)
    (h : N < 2 ^ v) :
    ∃ k : BitVec v, k.toNat = N ∧
      rleAll r (List.replicate (N + 1) p) = .ok ([r.count], ⟨p.held, k⟩) := by
  obtain ⟨k, hk, hrun⟩ := rleAll_replicate_held p (c := (0 : BitVec v)) (by simpa using h)
  refine ⟨k, by simpa using hk, ?_⟩
  rw [List.replicate_succ, rleAll_cons _ (rle_change hp), hrun]
  rfl

/-- Settles O40: a fresh filter holds 0, which is no symbol, so the first symbol begins a run. -/
theorem runOfEqualSymbolsIsCounted : Obligations.RunOfEqualSymbolsIsCounted := by
  refine fun p N c => ⟨fun hpos hle => ?_, fun h => rleAll_replicate_held p h⟩
  obtain ⟨M, rfl⟩ := Nat.exists_eq_succ_of_ne_zero hpos.ne'
  exact rleAll_replicate_new p.held_ne_zero (Nat.lt_of_succ_le hle)

end Sys2Proof.Machine
end

section
/-! Stage 3 on the machine: a stream of PUSH commands, cut by an ENDC or not (R124, R247), a PUSH
at a full counter (R123), and the first PUSH after reset (R121). -/

namespace Sys2Proof.Machine

theorem execAll_append {first second : List Instr} {s m : State}
    (h : execAll first s = .next m) : execAll (first ++ second) s = execAll second m := by
  induction first generalizing s with
  | nil =>
    cases h
    rfl
  | cons i first ih =>
    obtain ⟨u, hi, hfirst⟩ := execAll_cons_next h
    simp only [List.cons_append, execAll, hi, ih hfirst]

/-- PUSH commands that end without a fault take stage 3 over the symbols of the whole chunk, and
append its widths to those already there (R192, R196). -/
theorem execAll_push_widths {xs : List Sample} {s t : State}
    (h : execAll (xs.map .push) s = .next t) (ht : t.Unfaulted) :
    ∃ ws, rleAll s.blk.rl ((smoothAll hardware s.blk.sm xs).1.map (polarBy hardware.fgt0)) =
        .ok (ws, t.blk.rl) ∧ t.blk.rlbuf = s.blk.rlbuf ++ ws := by
  induction xs generalizing s with
  | nil =>
    cases h
    exact ⟨[], rfl, by simp⟩
  | cons x xs ih =>
    obtain ⟨u, hx, hxs⟩ := execAll_cons_next h
    obtain ⟨hu, -⟩ := execAll_push_window hxs ht
    obtain ⟨ws, hrest, hbuf⟩ := ih hxs
    obtain ⟨-, hpush⟩ := exec_push_completes hx hu
    obtain ⟨-, o, r, hr, hblk⟩ := pushBlock_ok_cases hpush
    rw [hblk] at hrest hbuf
    refine ⟨o.toList ++ ws, ?_, by simp [hbuf]⟩
    rw [smoothAll_cons, List.map_cons, rleAll_cons _ hr, hrest]
    rfl

/-- An ENDC on an unfaulted block empties the chunk and leaves stages 1 and 3 alone (R193). -/
theorem exec_endc_empties_chunk {s t : State} (hs : s.Unfaulted)
    (h : exec .endc s = .next t) :
    t.blk.sm = s.blk.sm ∧ t.blk.rl = s.blk.rl ∧ t.blk.rlbuf = [] := by
  have hcommand : blockCommand hardware .endc s.blk = endcBlock s.blk :=
    unlessFaulted_of_unfaulted hs
  rw [exec_eq_commit, hcommand] at h
  cases h
  exact ⟨rfl, rfl, rfl⟩

/-- Settles O41: after the first part, which both streams share, stages 1 and 3 start the second
part alike, and what they do with it depends on nothing else. -/
theorem chunkBoundariesDoNotChangeTheWidths : Obligations.ChunkBoundariesDoNotChangeTheWidths := by
  intro xs ys s m t u hm ht hu htf huf
  rw [List.map_append, execAll_append hm] at hu
  rw [List.append_assoc, execAll_append hm] at ht
  obtain ⟨e, hendc, hys⟩ := execAll_cons_next ht
  obtain ⟨hmf, uncutWindow⟩ := execAll_push_window hu huf
  obtain ⟨-, cutWindow⟩ := execAll_push_window hys htf
  obtain ⟨ws, uncutRun, uncutWidths⟩ := execAll_push_widths hu huf
  obtain ⟨ws', cutRun, cutWidths⟩ := execAll_push_widths hys htf
  obtain ⟨hsm, hrl, hempty⟩ := exec_endc_empties_chunk hmf hendc
  rw [hsm] at cutWindow
  rw [hsm, hrl, uncutRun] at cutRun
  obtain ⟨rfl, hrun⟩ : ws = ws' ∧ u.blk.rl = t.blk.rl := by simpa using cutRun
  refine ⟨by rw [cutWindow, uncutWindow], hrun.symm, ?_⟩
  rw [uncutWidths, cutWidths, hempty, List.nil_append]

/-- Settles O15: the chunk has room, so the fault is the one RLE raises at its limit. -/
theorem fullCounterRaisesCntOvf : Obligations.FullCounterRaisesCntOvf := by
  intro s x hf hn hp hc
  have hpush := pushCommand_of_rle_error (P := hardware) (x := x) hf hn (rle_at_limit hp hc)
  rw [exec_eq_commit, blockCommand, hpush, commit_silent]
  rfl

/-- Settles O38: the reset block holds no symbol, so its first PUSH ends a run of length 0. -/
theorem firstPushEmitsWidthZero : Obligations.FirstPushEmitsWidthZero := by
  intro x
  have hpush := pushEndsTheRun State.reset x rfl (by decide) (Pol.held_ne_zero _)
  exact ⟨_, hpush, rfl, rfl, Pol.held_ne_zero _, rfl⟩

end Sys2Proof.Machine
end

section
/-! What the loop of MERGE conserves, emits and keeps, for a carry-in of any size, and the
thresholds of stages 4 and 5 as quotients. -/

namespace Sys2Proof.Machine

/-! ### The loop of MERGE (R130) -/

theorem mergeLoop_conserves (m acc : Nat) (ws : List Nat) :
    (mergeLoop m acc ws).1.sum + (mergeLoop m acc ws).2 = acc + ws.sum := by
  induction ws generalizing acc with
  | nil => simp
  | cons w ws ih =>
    by_cases emits : mergeFactor * (acc + w) > m
    · rw [mergeLoop_emit emits, List.sum_cons, List.sum_cons, Nat.add_assoc, ih]
      omega
    · rw [mergeLoop_keep emits, List.sum_cons, ih, Nat.add_assoc]

/-- The first width brings a carry-in of any size within a quarter of the maximum: the loop
emits the sum unless it is within already. -/
theorem mergeLoop_cons_acc_bound (m acc w : Nat) (ws : List Nat) :
    4 * (mergeLoop m acc (w :: ws)).2 ≤ m := by
  by_cases emits : mergeFactor * (acc + w) > m
  · rw [mergeLoop_emit emits]
    exact mergeLoop_acc_bound le_rfl (Nat.zero_le m) ws
  · rw [mergeLoop_keep emits]
    exact mergeLoop_acc_bound le_rfl (not_lt.1 emits) ws

/-- The loop emits only what passes a quarter of the maximum (R134). -/
theorem mergeLoop_width_exceeds (m acc : Nat) (ws : List Nat) :
    ∀ x ∈ (mergeLoop m acc ws).1, m < 4 * x := by
  induction ws generalizing acc with
  | nil => simp
  | cons w ws ih =>
    by_cases emits : mergeFactor * (acc + w) > m
    · rw [mergeLoop_emit emits]
      exact List.forall_mem_cons.2 ⟨emits, ih 0⟩
    · rw [mergeLoop_keep emits]
      exact ih (acc + w)

theorem mergeLoop_length_le (m acc : Nat) (ws : List Nat) :
    (mergeLoop m acc ws).1.length ≤ ws.length := by
  induction ws generalizing acc with
  | nil => simp
  | cons w ws ih =>
    by_cases emits : mergeFactor * (acc + w) > m
    · rw [mergeLoop_emit emits]
      exact Nat.succ_le_succ (ih 0)
    · rw [mergeLoop_keep emits]
      exact (ih (acc + w)).trans (Nat.le_succ ws.length)

/-! ### MERGE of a chunk -/

/-- Settles O42: every turn of the loop conserves the width, and an empty chunk has none. -/
theorem mergeConservesWidth : Obligations.MergeConservesWidth := by
  intro acc ws
  cases ws with
  | nil => simp
  | cons w ws => exact mergeLoop_conserves _ acc (w :: ws)

theorem merge_acc_le_quarter (acc : Nat) {ws : List Nat} (h : ws ≠ []) :
    4 * (merge acc ws).2 ≤ maxWidth ws := by
  cases ws with
  | nil => exact absurd rfl h
  | cons w ws => exact mergeLoop_cons_acc_bound _ acc w ws

theorem merge_width_exceeds (acc : Nat) (ws : List Nat) :
    ∀ x ∈ (merge acc ws).1, maxWidth ws < 4 * x := by
  cases ws with
  | nil => simp
  | cons w ws => exact mergeLoop_width_exceeds _ acc (w :: ws)

theorem merge_length_le (acc : Nat) (ws : List Nat) : (merge acc ws).1.length ≤ ws.length := by
  cases ws with
  | nil => simp
  | cons w ws => exact mergeLoop_length_le _ acc (w :: ws)

theorem maxWidth_le_sum (ws : List Nat) : maxWidth ws ≤ ws.sum :=
  maxWidth_le_iff.2 fun _ => List.le_sum_of_mem

/-- A chunk that emits nothing leaves its whole sum in the accumulator, and a quarter of the
maximum holds a sum only of 0. -/
theorem merge_emits {acc w : Nat} {ws : List Nat} (hmem : w ∈ ws) (hw : w ≠ 0) :
    (merge acc ws).1 ≠ [] := by
  intro silent
  have conserved := mergeConservesWidth acc ws
  have kept := merge_acc_le_quarter acc (List.ne_nil_of_mem hmem)
  have small := maxWidth_le_sum ws
  have positive := List.le_sum_of_mem hmem
  rw [silent, List.sum_nil] at conserved
  omega

/-- Settles O43: each bound by its own lemma; a merged width passes a quarter of the maximum, so
it is not 0. -/
theorem mergeBoundsItsAccumulator : Obligations.MergeBoundsItsAccumulator := by
  refine fun acc ws => ⟨merge_acc_le_quarter acc, fun x hx => ?nonzero, ?emits,
    merge_length_le acc ws⟩
  case nonzero =>
    have exceeds := merge_width_exceeds acc ws x hx
    omega
  case emits =>
    rintro ⟨w, hmem, hw⟩
    exact merge_emits hmem hw

/-- Settles O44: R40 (c) is the bound on the carry-in under which ENDC loses nothing. -/
theorem mergedWidthsFitTheirRegisters : Obligations.MergedWidthsFitTheirRegisters :=
  fun _ h => ⟨endcBlock_merged_width_lt h.four_mul_acc_le,
    endcBlock_pmAcc_toNat h.four_mul_acc_le⟩

/-! ### The thresholds (R131, R141) -/

theorem isLong_iff {d w : Nat} : isLong d w = true ↔ biphaseFactor * w > d := decide_eq_true_iff

/-- A comparison by cross-multiplication is one with the fraction, and one with the truncated
quotient. -/
theorem mul_gt_iff_gt_quotient {k : Nat} (hk : 0 < k) (a m : Nat) :
    (k * a > m ↔ (a : ℚ) > (m : ℚ) / k) ∧ (k * a > m ↔ a > m / k) := by
  constructor
  · rw [gt_iff_lt, gt_iff_lt, div_lt_iff₀' (Nat.cast_pos.2 hk)]
    norm_cast
  · rw [gt_iff_lt, gt_iff_lt, Nat.div_lt_iff_lt_mul hk, Nat.mul_comm]

/-- Settles O45: both factors are positive, so either reading is the cross-multiplication. -/
theorem thresholdsReadTheSameEitherWay : Obligations.ThresholdsReadTheSameEitherWay := by
  intro a m
  obtain ⟨quarter, quarterTruncated⟩ :=
    mul_gt_iff_gt_quotient (show 0 < mergeFactor by decide) a m
  obtain ⟨half, halfTruncated⟩ :=
    mul_gt_iff_gt_quotient (show 0 < biphaseFactor by decide) a m
  rw [isLong_iff]
  exact ⟨quarter, quarterTruncated, half, halfTruncated⟩

end Sys2Proof.Machine
end

section
/-! Stage 5: the rows of the case table, the pulses each bit takes, and the class of the widest
and the narrowest pulse of a chunk. -/

namespace Sys2Proof.Machine

/-! ### The loop of BIPH (R142) -/

theorem biphLoop_long {d w : Nat} (long : isLong d w = true) (ws : List Nat) :
    biphLoop d false (w :: ws) = (false :: (biphLoop d false ws).1, (biphLoop d false ws).2) := by
  simp [biphLoop, long]

theorem biphLoop_short {d w : Nat} (short : isLong d w = false) (ws : List Nat) :
    biphLoop d false (w :: ws) = biphLoop d true ws := by
  simp [biphLoop, short]

/-- With a half bit pending the class of the pulse plays no part. -/
theorem biphLoop_pending (d w : Nat) (ws : List Nat) :
    biphLoop d true (w :: ws) = (true :: (biphLoop d false ws).1, (biphLoop d false ws).2) := rfl

/-- Settles O46: each row of the table by its own equation. -/
theorem biphaseFollowsTheCaseTable : Obligations.BiphaseFollowsTheCaseTable :=
  fun d w ws => ⟨fun long => biphLoop_long long ws, fun short => biphLoop_short short ws,
    biphLoop_pending d w ws⟩

/-- R144 for the loop with any spread: a 0 takes one pulse, a 1 two, and the flag stands for one
pulse already seen. -/
theorem biphLoop_accounts (d : Nat) (pend : Bool) (ms : List Nat) :
    ms.length + pend.toNat = (biphLoop d pend ms).1.count false +
      2 * (biphLoop d pend ms).1.count true + (biphLoop d pend ms).2.toNat := by
  induction ms generalizing pend with
  | nil => simp
  | cons w ws ih =>
    cases pend with
    | true =>
      have rest := ih false
      simp only [biphLoop_pending, List.length_cons, List.count_cons_self,
        List.count_cons_of_ne Bool.false_ne_true.symm, Bool.toNat_false, Bool.toNat_true] at rest ⊢
      omega
    | false =>
      by_cases long : isLong d w = true
      · have rest := ih false
        simp only [biphLoop_long long, List.length_cons, List.count_cons_self,
          List.count_cons_of_ne Bool.false_ne_true]
        omega
      · have rest := ih true
        rwa [biphLoop_short (Bool.eq_false_of_not_eq_true long), List.length_cons]

/-- Settles O47: the account of the loop, whatever the spread of the chunk. -/
theorem biphaseAccountsForEveryPulse : Obligations.BiphaseAccountsForEveryPulse := by
  intro pend ms
  cases ms with
  | nil => simp
  | cons w ws => exact biphLoop_accounts _ pend (w :: ws)

theorem biphLoop_all_long {d : Nat} {ms : List Nat} (long : ∀ w ∈ ms, isLong d w = true) :
    biphLoop d false ms = (List.replicate ms.length false, false) := by
  induction ms with
  | nil => simp
  | cons w ws ih =>
    obtain ⟨hw, hrest⟩ := List.forall_mem_cons.1 long
    rw [biphLoop_long hw, ih hrest, List.length_cons, List.replicate_succ]

/-! ### The widest and the narrowest pulse of a chunk (R140) -/

theorem max?_eq_maxWidth {ms : List Nat} (h : ms ≠ []) : ms.max? = some (maxWidth ms) := by
  cases ms with
  | nil => exact absurd rfl h
  | cons w ws => rw [List.max?_cons', maxWidth, List.foldl_cons, Nat.zero_max]

theorem min?_eq_minWidth {ms : List Nat} (h : ms ≠ []) : ms.min? = some (minWidth ms) := by
  cases ms with
  | nil => exact absurd rfl h
  | cons w ws => exact List.min?_cons'

theorem maxWidth_mem {ms : List Nat} (h : ms ≠ []) : maxWidth ms ∈ ms :=
  List.max?_mem (max?_eq_maxWidth h)

theorem minWidth_mem {ms : List Nat} (h : ms ≠ []) : minWidth ms ∈ ms :=
  List.min?_mem (min?_eq_minWidth h)

theorem spread_le_of_bounds {ms : List Nat} {lo hi : Nat} (h : ms ≠ [])
    (bounds : ∀ w ∈ ms, lo ≤ w ∧ w ≤ hi) : spread ms ≤ hi - lo :=
  tsub_le_tsub (bounds _ (maxWidth_mem h)).2 (bounds _ (minWidth_mem h)).1

theorem isLong_iff_lt_two_mul {d w : Nat} : isLong d w = true ↔ d < 2 * w := isLong_iff

theorem isLong_maxWidth {ms : List Nat} (positive : 1 ≤ maxWidth ms) :
    isLong (spread ms) (maxWidth ms) = true := by
  rw [isLong_iff_lt_two_mul, spread]
  omega

theorem isLong_minWidth_eq_false_iff (ms : List Nat) :
    isLong (spread ms) (minWidth ms) = false ↔ 3 * minWidth ms ≤ maxWidth ms := by
  rw [← Bool.not_eq_true, isLong_iff_lt_two_mul, spread]
  omega

/-- Settles O48: the widest and the narrowest are widths of the chunk, so the widest is
at least 1, and they are equal when all widths are. -/
theorem spreadClassifiesWidestAndNarrowest : Obligations.SpreadClassifiesWidestAndNarrowest := by
  refine ⟨biph_nil, fun ms h positive => ?_⟩
  have widest := maxWidth_mem h
  have narrowest := minWidth_mem h
  refine ⟨fun equal => ?equal, widest, narrowest, isLong_maxWidth (positive _ widest),
    isLong_minWidth_eq_false_iff ms⟩
  case equal =>
    have no_spread : spread ms = 0 := by rw [spread, equal _ widest _ narrowest, Nat.sub_self]
    refine ⟨no_spread, fun w hw => ?_⟩
    rw [no_spread, isLong_iff_lt_two_mul]
    exact Nat.mul_pos Nat.two_pos (positive w hw)

/-- Settles O49: the spread is at most `hi - lo`, below twice `lo`, so every pulse is long. -/
theorem narrowSpreadDecodesToZeros : Obligations.NarrowSpreadDecodesToZeros := by
  intro ms lo hi _ narrow bounds
  cases ms with
  | nil => simp
  | cons w ws =>
    have small := spread_le_of_bounds (List.cons_ne_nil w ws) bounds
    refine biphLoop_all_long fun x hx => isLong_iff_lt_two_mul.2 ?_
    have wide := (bounds x hx).1
    omega

end Sys2Proof.Machine
end

section
/-! Stage 6 on one bit, on the bits between two matches, and on a frame (spec/45_frame_sync.md
R150 to R156). -/

namespace Sys2Proof.Machine

/-! ### SYNC, branch by branch (R150) -/

theorem sync_of_no_match {f : SyncState} (h : syncMatch f.buf = false) (bit : Bool) :
    sync f bit = ({ f with buf := f.buf ++ [bit] }, none) := by
  simp [sync, h]

theorem sync_of_rejected_match {f : SyncState} (h : syncMatch f.buf = true)
    (hlen : f.buf.length ≠ frameLen) (bit : Bool) : sync f bit = (⟨[bit], 0, none⟩, none) := by
  simp [sync, h, hlen]

theorem sync_of_frame {f : SyncState} (h : syncMatch f.buf = true)
    (hlen : f.buf.length = frameLen) (bit : Bool) :
    sync f bit = (⟨[bit], (fdec f.buf).frame, rateAfter (fdec f.buf).frame f.prev f.rate⟩,
      some ⟨fdec f.buf, rateAfter (fdec f.buf).frame f.prev f.rate⟩) := by
  simp [sync, h, hlen]

/-! ### The estimate (R155) -/

/-- A held frame number is at most 45 (R40), so the 6-bit estimate does not wrap. -/
theorem rateAfter_of_decrease {frame prev : BitVec Config.frameW} (hprev : prev.toNat ≤ 45)
    (rate : Option (BitVec Config.rateW)) (h : frame.toNat < prev.toNat) :
    ∃ r, rateAfter frame prev rate = some r ∧ r.toNat = prev.toNat + 1 :=
  ⟨prev + rateStep, if_pos (BitVec.lt_def.2 h),
    Nat.mod_eq_of_lt (show prev.toNat + 1 < 64 by omega)⟩

theorem rateAfter_of_no_decrease {frame prev : BitVec Config.frameW}
    (rate : Option (BitVec Config.rateW)) (h : prev.toNat ≤ frame.toNat) :
    rateAfter frame prev rate = rate :=
  if_neg (BitVec.not_lt.2 (BitVec.le_def.2 h))

/-- Settles O50: the three branches of SYNC, and the two of the estimate. -/
theorem syncDecidesOnTheBufferBeforeTheBit : Obligations.SyncDecidesOnTheBufferBeforeTheBit :=
  fun f bit hprev =>
    ⟨fun hm => sync_of_no_match hm bit, fun hm hlen => sync_of_rejected_match hm hlen bit,
      fun hm hlen => ⟨rateAfter (fdec f.buf).frame f.prev f.rate, sync_of_frame hm hlen bit,
        rateAfter_of_decrease hprev f.rate, rateAfter_of_no_decrease f.rate⟩⟩

/-! ### The match (R151) -/

/-- The last `n` bits are `w` exactly when they are so place by place. -/
theorem drop_eq_iff_getElem? {buf w : List Bool} (h : w.length ≤ buf.length) :
    buf.drop (buf.length - w.length) = w ↔
      ∀ i < w.length, buf[buf.length - w.length + i]? = w[i]? := by
  constructor
  · intro hlast i _
    rw [← List.getElem?_drop, hlast]
  · intro hbits
    have hcount : (buf.drop (buf.length - w.length)).length = w.length := by
      rw [List.length_drop]
      omega
    refine List.ext_getElem?' fun i hi => ?_
    rw [List.getElem?_drop]
    exact hbits i (by omega)

/-- Settles O51: a buffer of 16 bits or more ends in the sync word exactly when its last 16
places read as those of the sync word. -/
theorem matchComparesTheLast16Bits : Obligations.MatchComparesTheLast16Bits := fun buf =>
  (syncMatch_iff buf).trans (and_congr_right (drop_eq_iff_getElem? (w := syncWord)))

/-! ### Between two matches, and at a frame (R152, R154) -/

/-- Bits before each of which the buffer does not match are only appended. -/
theorem syncAll_of_no_match {f : SyncState} {bits : List Bool}
    (h : ∀ k < bits.length, syncMatch (f.buf ++ bits.take k) = false) :
    syncAll f bits = ({ f with buf := f.buf ++ bits }, []) := by
  induction bits generalizing f with
  | nil => simp
  | cons bit bits ih =>
    have hfirst : syncMatch f.buf = false := by simpa using h 0 (Nat.succ_pos _)
    have hrest : ∀ k < bits.length, syncMatch (f.buf ++ [bit] ++ bits.take k) = false :=
      fun k hk => by simpa using h (k + 1) (Nat.succ_lt_succ hk)
    rw [syncAll_cons, sync_of_no_match hfirst, ih hrest]
    simp

/-- Settles O52: no bit of the frame meets a match, and the bit after it meets the frame. -/
theorem frameIsDeliveredByTheNextBit : Obligations.FrameIsDeliveredByTheNextBit := by
  intro B prev rate bit ⟨hlen, hmatch, hearlier⟩
  have hheld : syncAll ⟨[], prev, rate⟩ B = (⟨B, prev, rate⟩, []) :=
    syncAll_of_no_match fun k hk => hearlier k (hlen ▸ hk)
  refine ⟨hheld, ?_⟩
  rw [syncAll_append, hheld, syncAll_cons, sync_of_frame hmatch hlen]
  rfl

end Sys2Proof.Machine
end

section
/-! FDEC's numbers and RENDER's text (spec/46_frame_decode.md R171, R172, R178, R179). -/

namespace Sys2Proof.Machine

/-! ### The decoded numbers, exactly (R171) -/

/-- Settles O55: the numbers of the rows, read at the rows' offsets, and the ranges of their
digits (R172). -/
theorem decodedNumbersAreExact : Obligations.DecodedNumbersAreExact := by
  intro B
  obtain ⟨frame, second, minute, hour⟩ := fdec_numbers B
  exact ⟨frame, second, minute, hour,
    fdec_frame_le B, fdec_second_le B, fdec_minute_le B, fdec_hour_le B⟩

/-! ### The text of a number (R178) -/

/-- One more place of padding is one more `0` in front, for a number that already fits. -/
theorem paddedDecimal_succ {n v : Nat} (hn : 0 < n) (hv : v < 10 ^ n) :
    paddedDecimal (n + 1) v = '0' :: paddedDecimal n v := by
  have fits : (Nat.toDigits 10 v).length ≤ n := Nat.toDigits_length 10 v n hn hv
  simp [paddedDecimal, List.leftpad, Nat.succ_sub fits, List.replicate_succ]

/-- A number below 100 on two places is its tens and its units, a tens digit of 0 written out. -/
theorem paddedDecimal_two {v : Nat} (hv : v < 100) :
    paddedDecimal 2 v = [Nat.digitChar (v / 10), Nat.digitChar (v % 10)] := by
  obtain one_digit | two_digits := Nat.lt_or_ge v 10
  · rw [paddedDecimal, Nat.toDigits_of_lt_base one_digit, Nat.div_eq_of_lt one_digit,
      Nat.mod_eq_of_lt one_digit]
    rfl
  · have tens : v / 10 < 10 := Nat.div_lt_of_lt_mul hv
    rw [paddedDecimal, Nat.toDigits_of_base_le (by decide) two_digits,
      Nat.toDigits_of_lt_base tens]
    rfl

theorem paddedDecimal_three {v : Nat} (hv : v < 100) :
    paddedDecimal 3 v = ['0', Nat.digitChar (v / 10), Nat.digitChar (v % 10)] := by
  rw [paddedDecimal_succ Nat.two_pos hv, paddedDecimal_two hv]

/-! ### The round trip (R179) -/

/-- FDEC gives back the numbers whose digits the fields hold. -/
theorem fdec_of_holdsTime {B : List Bool} {h m s f : Nat} (holds : HoldsTime B h m s f) :
    (fdec B).hour.toNat = h ∧ (fdec B).minute.toNat = m ∧ (fdec B).second.toNat = s ∧
      (fdec B).frame.toNat = f := by
  obtain ⟨frameUnits, frameTens, secondUnits, secondTens, minuteUnits, minuteTens,
    hourUnits, hourTens⟩ := holds
  obtain ⟨frame, second, minute, hour, -⟩ := decodedNumbersAreExact B
  rw [frame, second, minute, hour, frameUnits, frameTens, secondUnits, secondTens, minuteUnits,
    minuteTens, hourUnits, hourTens]
  exact ⟨Nat.mod_add_div h 10, Nat.mod_add_div m 10, Nat.mod_add_div s 10, Nat.mod_add_div f 10⟩

/-- Settles O56: units and tens make up each number again, and each is below 100, so RENDER
writes its two digits. -/
theorem timeSurvivesDecodingAndRendering : Obligations.TimeSurvivesDecodingAndRendering := by
  intro B h m s f hh hm hs hf holds
  obtain ⟨hour, minute, second, frame⟩ := fdec_of_holdsTime holds
  refine ⟨hour, minute, second, frame, ?text⟩
  case text =>
    rw [render, hour, minute, second, frame, paddedDecimal_two (by omega : h < 100),
      paddedDecimal_two (by omega : m < 100), paddedDecimal_two (by omega : s < 100),
      paddedDecimal_three (by omega : f < 100)]
    rfl

end Sys2Proof.Machine
end

section
/-! The commands one by one (spec/47_commands.md): illegal words (R195), NOP (R190), a PUSH on a
full chunk (R192), ENDC (R193) and RST (R194), and what each command leaves alone. -/

namespace Sys2Proof.Machine

variable {n v : Nat}

/-- Settles O24: `exec` commits what the block's command answers, which is about the block. -/
theorem commandDependsOnTheBlockAlone : Obligations.CommandDependsOnTheBlockAlone := by
  intro i s u hblk
  refine ⟨_, _, exec_eq_commit i s, ?_⟩
  rw [hblk]
  exact exec_eq_commit i u

/-- While a fault is recorded every command but RST is ignored (R215). -/
theorem exec_of_faulted {i : Instr} {s : State} (hf : ¬ s.Unfaulted) (hi : i ≠ .rst) :
    exec i s = .next s := by
  have ignored : blockCommand hardware i s.blk = (s.blk, []) := by
    cases i with
    | nop => rfl
    | push x => exact unlessFaulted_of_faulted hf
    | endc => exact unlessFaulted_of_faulted hf
    | rst => exact absurd rfl hi
  rw [exec_eq_commit, ignored, commit_silent]

/-! ### Words with a forbidden payload (R74, R195) -/

/-- A payload is illegal with every opcode but that of PUSH. -/
theorem decode_of_forbidden_payload {w : CmdWord} (hop : opField w ≠ 0b01#2)
    (hp : payloadField w ≠ 0#32) : ∃ r, decode w = .error r := by
  obtain ⟨i, rfl⟩ | ⟨-, -, rejected⟩ := decode_cases w
  · exact absurd (encode_fields i) (by simp [hop, hp])
  · exact rejected

theorem decode_append_ne_ok {op : BitVec 2} {p : BitVec 32} (hop : op ≠ 0b01#2) (hp : p ≠ 0#32)
    (i : Instr) : decode (op ++ p) ≠ .ok i := by
  obtain ⟨r, hr⟩ := decode_of_forbidden_payload (w := op ++ p) (by simpa) (by simpa)
  simp [hr]

/-- The two cases of an illegal word differ in the `fault` register alone. -/
theorem illegalWord_eq (b : BlockOf n v) :
    illegalWord b = ({ b with fault := if b.fault = 0#2 then 1#2 else b.fault }, []) := by
  obtain ⟨hf, h⟩ | ⟨hf, h⟩ := illegalWord_cases b
  · rw [h, if_neg hf]
  · rw [h, if_pos hf]
    rfl

/-- Settles O6: the word is rejected, so the step does what an illegal word does. -/
theorem illegalWordRaisesIllegalCmd : Obligations.IllegalWordRaisesIllegalCmd := by
  intro s w rest hport hop hp
  obtain ⟨r, hr⟩ := decode_of_forbidden_payload ((op_forbids_payload_iff _).1 hop) hp
  calc step s = runWord w (taken (.command w) rest s) := step_of_port_cons hport
    _ = .next (commit (illegalWord s.blk) (taken (.command w) rest s)) := by
      simp only [runWord, hr, taken_blk]
    _ = _ := by
      rw [illegalWord_eq, commit_silent]
      rfl

/-! ### NOP, RST, and a PUSH on a full chunk -/

theorem exec_nop (s : State) : exec .nop s = .next s :=
  congrArg Host.Outcome.next (commit_silent s s.blk)

theorem exec_rst (s : State) : exec .rst s = .next { s with blk := Block.reset } :=
  congrArg Host.Outcome.next (commit_silent s Block.reset)

/-- Settles O11: NOP commits the block it finds, the step on its word runs it, and a payload beside
its opcode is rejected. -/
theorem nopChangesNothing : Obligations.NopChangesNothing := by
  refine ⟨rfl, exec_nop, fun s rest hport => ?_, fun p => decode_append_ne_ok (by decide)⟩
  rw [stepRunsTheDecodedCommand s _ rest .nop hport (decode_encode .nop), exec_nop]

/-- Settles O19: RST puts the reset block in place of the block, whatever that was. -/
theorem rstResetsTheWholeBlock : Obligations.RstResetsTheWholeBlock :=
  ⟨rfl, fun s => ⟨Block.reset, reset_hasResetValues, exec_rst s⟩,
    fun _ => decode_append_ne_ok (by decide)⟩

/-- Settles O14: PUSH looks at the chunk before the counter (R213). -/
theorem fullChunkRaisesChunkOvf : Obligations.FullChunkRaisesChunkOvf := by
  intro s x hf hn
  rw [exec_eq_commit, blockCommand, pushCommand_chunk_full (P := hardware) x hf hn, commit_silent]
  rfl

/-! ### ENDC -/

theorem exec_endc_of_unfaulted {s : State} (hf : s.Unfaulted) :
    exec .endc s = .next (commit (endcBlock s.blk) s) :=
  congrArg (fun r => Host.Outcome.next (commit r s)) (unlessFaulted_of_unfaulted hf)

/-- MERGE and BIPH give back their carry on an empty chunk, and SYNC has no bit to take (R133,
R143). -/
theorem endcBlock_of_empty {b : BlockOf n v} (h : b.rlbuf = []) :
    endcBlock b = ({ b with chunkN := 0 }, []) := by
  simp [endcBlock, h]

/-- Settles O16: the body of ENDC is the three stages, each on the output of the one before. -/
theorem endcRunsStages4To6 : Obligations.EndcRunsStages4To6 :=
  fun _ hf => ⟨_, _, _, _, _, _, rfl, rfl, rfl, exec_endc_of_unfaulted hf⟩

/-- Settles O17, by what the body of ENDC does with no run length. -/
theorem endcOnAnEmptyChunkClearsOnlyTheCount :
    Obligations.EndcOnAnEmptyChunkClearsOnlyTheCount := by
  intro s hf hempty
  rw [exec_endc_of_unfaulted hf, endcBlock_of_empty hempty, commit_silent]

/-- Settles O18: an ENDC that runs leaves an empty chunk with `chunk_n` 0, on which the next
changes nothing; an ENDC that is ignored leaves the fault for which the next is ignored. -/
theorem secondEndcChangesNothing : Obligations.SecondEndcChangesNothing := by
  intro s t h
  by_cases hf : s.Unfaulted
  · rw [exec_endc_of_unfaulted hf] at h
    cases h
    exact endcOnAnEmptyChunkClearsOnlyTheCount _ hf rfl
  · have ignored : exec .endc s = .next s := exec_of_faulted hf (by decide)
    rw [ignored] at h
    cases h
    exact ignored

/-! ### Frames -/

/-- What PUSH leaves alone, ignored, faulting or completed, and what it may append (R191). -/
theorem pushCommand_frame (P : Config.Params n v) (x : BitVec n) (b : BlockOf n v) :
    (pushCommand P x b).1.pmAcc = b.pmAcc ∧ (pushCommand P x b).1.bpPending = b.bpPending ∧
      (pushCommand P x b).1.fs = b.fs ∧ b.rlbuf <+: (pushCommand P x b).1.rlbuf ∧
      (pushCommand P x b).1.rlbuf.length ≤ b.rlbuf.length + 1 := by
  obtain ⟨-, h⟩ | ⟨-, c, -, h⟩ | ⟨-, t, ht, h⟩ := pushCommand_cases P x b
  · rw [h]
    simp
  · rw [h]
    simp
  · obtain ⟨-, o, r, -, rfl⟩ := pushBlock_ok_cases ht
    rw [h]
    refine ⟨rfl, rfl, rfl, List.prefix_append _ _, ?_⟩
    cases o <;> simp

/-- What ENDC leaves alone, ignored or not (R193). -/
theorem endcCommand_frame (b : BlockOf n v) :
    (endcCommand b).1.sm = b.sm ∧ (endcCommand b).1.rl = b.rl ∧
      (endcCommand b).1.fault = b.fault := by
  obtain ⟨-, h⟩ | ⟨-, h⟩ := endcCommand_cases b <;> rw [h] <;> exact ⟨rfl, rfl, rfl⟩

/-- Settles O21: around the block a command changes the events alone, and appends to them. -/
theorem commandsKeepTheirFrames : Obligations.CommandsKeepTheirFrames := by
  intro s t
  refine ⟨fun h => ?nop, fun x h => ?push, fun h => ?endc, fun h => ?rst⟩
  case nop =>
    rw [exec_nop] at h
    cases h
    rfl
  case push =>
    rw [exec_eq_commit] at h
    cases h
    refine ⟨rfl, rfl, ?_, pushCommand_frame hardware x s.blk⟩
    simp [blockCommand, pushCommand_events]
  case endc =>
    rw [exec_eq_commit] at h
    cases h
    exact ⟨rfl, rfl, List.prefix_append _ _, endcCommand_frame s.blk⟩
  case rst =>
    rw [exec_rst] at h
    cases h
    exact ⟨rfl, rfl, rfl⟩

end Sys2Proof.Machine
end

section
/-! The commands of one chunk against ProcessChunk (spec/47_commands.md R196). -/

namespace Sys2Proof.Machine

variable {n v : Nat}

/-! ### Stage 3 over a chunk, where it faults and where it cannot -/

/-- RLE over a chunk faults at its first symbol or later, and always with CNT_OVF (R123). -/
theorem rleAll_cons_error_cases {r : RunStateOf v} {p : Pol} {ps : List Pol} {c : FaultCause}
    (h : rleAll r (p :: ps) = .error c) :
    rle r p = .error .cntOvf ∨ ∃ o q, rle r p = .ok (o, q) ∧ rleAll q ps = .error c := by
  cases hr : rle r p with
  | error c' => exact .inl (congrArg Except.error (rle_error hr).1)
  | ok o =>
    refine .inr ⟨o.1, o.2, rfl, ?_⟩
    rw [rleAll_cons ps hr] at h
    cases hps : rleAll o.2 ps with
    | error c' =>
      rw [hps] at h
      cases h
      rfl
    | ok rest => simp [hps, Except.map] at h

theorem exists_rle_ok {r : RunStateOf v} (p : Pol) (hc : r.count.toNat ≠ countLimit v) :
    ∃ o q, rle r p = .ok (o, q) := by
  by_cases hp : p.held = r.last
  · exact ⟨_, _, rle_same hp hc⟩
  · exact ⟨_, _, rle_change hp⟩

/-- A chunk whose symbols all fit in the counter raises no fault, however they change. -/
theorem exists_rleAll_ok {r : RunStateOf v} {ps : List Pol}
    (h : r.count.toNat + ps.length < 2 ^ v) : ∃ ws, rleAll r ps = .ok ws := by
  induction ps generalizing r with
  | nil => exact ⟨_, rfl⟩
  | cons p ps ih =>
    rw [List.length_cons] at h
    have room : r.count.toNat ≠ countLimit v := by
      unfold countLimit
      omega
    obtain ⟨o, q, hr⟩ := exists_rle_ok p room
    have counted := rle_ok_accounts hr
    obtain ⟨ws, hrest⟩ := ih (r := q) (by omega)
    rw [rleAll_cons ps hr, hrest]
    exact ⟨_, rfl⟩

/-! ### ProcessChunk as stage 3 and an ENDC -/

/-- Stages 1 and 2 over a whole chunk (R196): the symbols of its samples. -/
def chunkSymbols (P : Config.Params n v) (h : SmHistOf n) (xs : List (BitVec n)) : List Pol :=
  (smoothAll P h xs).1.map (polarBy P.fgt0)

theorem chunkSymbols_cons (P : Config.Params n v) (h : SmHistOf n) (x : BitVec n)
    (xs : List (BitVec n)) :
    chunkSymbols P h (x :: xs) =
      polarBy P.fgt0 (smooth P h x).1 :: chunkSymbols P (smooth P h x).2 xs := rfl

theorem length_chunkSymbols (P : Config.Params n v) (h : SmHistOf n) (xs : List (BitVec n)) :
    (chunkSymbols P h xs).length = xs.length := by
  induction xs generalizing h with
  | nil => rfl
  | cons x xs ih => simp [chunkSymbols_cons, ih]

/-- The block after a PUSH for each sample of `xs`, when stage 3 has answered `ws`, its widths
and the run left (R192). -/
def BlockOf.pushed (P : Config.Params n v) (b : BlockOf n v) (xs : List (BitVec n))
    (ws : List (BitVec v) × RunStateOf v) : BlockOf n v :=
  { b with sm := (smoothAll P b.sm xs).2, rl := ws.2, rlbuf := b.rlbuf ++ ws.1
           chunkN := b.chunkN + xs.length }

@[simp] theorem BlockOf.pushed_chunkN (P : Config.Params n v) (b : BlockOf n v)
    (xs : List (BitVec n)) (ws : List (BitVec v) × RunStateOf v) :
    (b.pushed P xs ws).chunkN = b.chunkN + xs.length := rfl

theorem BlockOf.pushed_nil (P : Config.Params n v) (b : BlockOf n v) :
    b.pushed P [] ([], b.rl) = b := by
  simp [BlockOf.pushed]

/-- The samples after the first are pushed on the block that the first leaves. -/
theorem BlockOf.pushed_cons (P : Config.Params n v) (b : BlockOf n v) (x : BitVec n)
    (xs : List (BitVec n)) (first rest : List (BitVec v)) (q r : RunStateOf v) :
    b.pushed P (x :: xs) (first ++ rest, r) =
      (b.pushed P [x] (first, q)).pushed P xs (rest, r) := by
  simp [BlockOf.pushed, smoothAll_cons, Nat.add_assoc, Nat.add_comm 1]

/-- From a block between chunks, ProcessChunk is stages 1 to 3 over the samples and then the
body of ENDC, which leaves the empty chunk it started from. -/
theorem processChunkFor_eq {P : Config.Params n v} {b : BlockOf n v} (hn : b.chunkN = 0)
    (hempty : b.rlbuf = []) (xs : List (BitVec n)) :
    processChunkFor P b xs =
      (rleAll b.rl (chunkSymbols P b.sm xs)).map fun ws => endcBlock (b.pushed P xs ws) := by
  simp only [processChunkFor, chunkSymbols]
  cases rleAll b.rl ((smoothAll P b.sm xs).1.map (polarBy P.fgt0)) with
  | error c => rfl
  | ok ws => simp [Except.map, endcBlock, BlockOf.pushed, hn, hempty]

/-! ### The commands of a chunk -/

theorem chunkCommands_cons (x : Sample) (xs : List Sample) :
    chunkCommands (x :: xs) = .push x :: chunkCommands xs := rfl

theorem execAll_chunkCommands_of_faulted {s : State} (hf : ¬ s.Unfaulted) (xs : List Sample) :
    execAll (chunkCommands xs) s = .next s := by
  induction xs with
  | nil => simp [chunkCommands, execAll, exec_of_faulted hf]
  | cons x xs ih => simp [chunkCommands_cons, execAll, exec_of_faulted hf, ih]

/-- A PUSH on a chunk with room does what stage 3 does with its symbol (R192). -/
theorem exec_push_of_rle_ok {s : State} {x : Sample} {o : Option Width} {q : RunState}
    (hf : s.Unfaulted) (hn : s.blk.chunkN ≠ Config.maxChunk)
    (h : rle s.blk.rl (polarBy hardware.fgt0 (smooth hardware s.blk.sm x).1) = .ok (o, q)) :
    exec (.push x) s = .next { s with blk := s.blk.pushed hardware [x] (o.toList, q) } := by
  rw [exec_eq_commit, blockCommand, pushCommand_of_rle_ok (P := hardware) hf hn h, commit_silent]
  rfl

theorem exec_push_of_rle_error {s : State} {x : Sample} {c : FaultCause}
    (hf : s.Unfaulted) (hn : s.blk.chunkN ≠ Config.maxChunk)
    (h : rle s.blk.rl (polarBy hardware.fgt0 (smooth hardware s.blk.sm x).1) = .error c) :
    exec (.push x) s = .next { s with blk := raise c s.blk } := by
  rw [exec_eq_commit, blockCommand, pushCommand_of_rle_error (P := hardware) hf hn h, commit_silent]

/-- Where stage 3 does not fault, a chunk of at most MAX_CHUNK samples brings ENDC to the block
with all of them pushed. -/
theorem execAll_chunkCommands_of_rleAll_ok {s : State} {xs : List Sample}
    {ws : List Width × RunState} (hf : s.Unfaulted)
    (hn : s.blk.chunkN + xs.length ≤ Config.maxChunk)
    (h : rleAll s.blk.rl (chunkSymbols hardware s.blk.sm xs) = .ok ws) :
    execAll (chunkCommands xs) s =
      .next (commit (endcBlock (s.blk.pushed hardware xs ws)) s) := by
  induction xs generalizing s ws with
  | nil =>
    cases h
    rw [BlockOf.pushed_nil, chunkCommands, List.map_nil, List.nil_append, execAll,
      exec_endc_of_unfaulted hf]
    rfl
  | cons x xs ih =>
    rw [List.length_cons] at hn
    obtain ⟨ws, r⟩ := ws
    obtain ⟨o, q, rest, hx, hxs, rfl⟩ := rleAll_cons_ok_cases h
    have room :
        (s.blk.pushed hardware [x] (o.toList, q)).chunkN + xs.length ≤ Config.maxChunk := by
      rw [BlockOf.pushed_chunkN, List.length_singleton]
      omega
    rw [chunkCommands_cons, execAll, exec_push_of_rle_ok hf (by omega) hx,
      BlockOf.pushed_cons (q := q)]
    exact ih (s := { s with blk := s.blk.pushed hardware [x] (o.toList, q) }) hf room hxs

/-- Where stage 3 faults, the PUSH of that symbol raises CNT_OVF, and the rest of the chunk is
ignored. -/
theorem execAll_chunkCommands_of_rleAll_error {s : State} {xs : List Sample} {c : FaultCause}
    (hf : s.Unfaulted) (hn : s.blk.chunkN + xs.length ≤ Config.maxChunk)
    (h : rleAll s.blk.rl (chunkSymbols hardware s.blk.sm xs) = .error c) :
    ∃ t, execAll (chunkCommands xs) s = .next t ∧ t.blk.fault = FaultCause.cntOvf.code := by
  induction xs generalizing s with
  | nil => cases h
  | cons x xs ih =>
    rw [List.length_cons] at hn
    rw [chunkCommands_cons, execAll]
    obtain hx | ⟨o, q, hx, hxs⟩ := rleAll_cons_error_cases h
    · rw [exec_push_of_rle_error hf (by omega) hx]
      exact ⟨_, execAll_chunkCommands_of_faulted (FaultCause.code_ne_zero .cntOvf) xs, rfl⟩
    · rw [exec_push_of_rle_ok hf (by omega) hx]
      refine ih (s := { s with blk := s.blk.pushed hardware [x] (o.toList, q) }) hf ?room hxs
      rw [BlockOf.pushed_chunkN, List.length_singleton]
      omega

/-- Settles O59: ProcessChunk and the commands both turn on what stage 3 answers over the whole
chunk. -/
theorem chunkCommandsDoProcessChunk : Obligations.ChunkCommandsDoProcessChunk := by
  intro s xs hf hn hempty hlen
  have room : s.blk.chunkN + xs.length ≤ Config.maxChunk := by omega
  rw [processChunk, processChunkFor_eq hn hempty]
  refine ⟨fun b es h => ?done, fun c h => ?faults, fun short => ?fits⟩
  case done =>
    cases hws : rleAll s.blk.rl (chunkSymbols hardware s.blk.sm xs) with
    | error c => simp [hws, Except.map] at h
    | ok ws =>
      rw [hws] at h
      have hresult : endcBlock (s.blk.pushed hardware xs ws) = (b, es) := Except.ok.inj h
      rw [execAll_chunkCommands_of_rleAll_ok hf room hws, hresult]
      rfl
  case faults =>
    cases hws : rleAll s.blk.rl (chunkSymbols hardware s.blk.sm xs) with
    | error c => exact execAll_chunkCommands_of_rleAll_error hf room hws
    | ok ws => simp [hws, Except.map] at h
  case fits =>
    obtain ⟨ws, hws⟩ := exists_rleAll_ok (r := s.blk.rl)
      (ps := chunkSymbols hardware s.blk.sm xs) (by rwa [length_chunkSymbols])
    rw [hws]
    exact ⟨_, rfl⟩

end Sys2Proof.Machine
end

section
/-! What each input of the host does (spec/30_encoding.md R70; spec/70_reset_and_hazards.md R240;
spec/60_exceptions.md R227, R254). -/

namespace Sys2Proof.Machine

theorem step_of_port_nil {s : State} (h : s.port = []) : step s = .next s := by
  simp [step, nextInput, h]

/-- Settles O7, by the branch of the step with no input. -/
theorem idleBlockHoldsItsState : Obligations.IdleBlockHoldsItsState :=
  fun _ => step_of_port_nil

/-- Settles O9: the pin and RST put the same reset block in place. -/
theorem resetPinLeavesWhatRstLeaves : Obligations.ResetPinLeavesWhatRstLeaves := by
  intro s rest hport
  exact ⟨_, _, step_of_port_cons hport, exec_rst s, rfl, rfl, rfl, rfl⟩

/-- A word the pin cuts short resets the block and leaves the first `k` of the events that the
whole word emits (R240). -/
theorem accept_resetDuring (w : CmdWord) (k : Nat) (s : State) :
    accept (.resetDuring w k) s = .next { s with
      blk := Block.reset, events := s.events ++ (blockWord hardware w s.blk).2.take k } := by
  simp [accept, runWord_eq_commit, abandon, resetBlock]

/-- Settles O10: whole or cut short, the word starts from the same block. -/
theorem resetPinAbandonsACommand : Obligations.ResetPinAbandonsACommand := by
  intro s w k rest hport
  have hwhole : step { s with port := .command w :: rest } =
      .next (commit (blockWord hardware w s.blk) (taken (.command w) rest s)) := by
    rw [step_of_port_cons rfl]
    exact runWord_eq_commit w _
  have hcut := (step_of_port_cons hport).trans (accept_resetDuring w k _)
  exact ⟨_, _, hwhole, rfl, hcut⟩

/-- Every input is accepted; it leaves the port and the index as they stand once it is read, and
appends to the events (R254, R75). -/
theorem accept_next (p : PortInput) (s : State) :
    ∃ t, accept p s = .next t ∧ t.port = s.port ∧ t.cmdIndex = s.cmdIndex ∧
      s.events <+: t.events := by
  cases p with
  | command w => exact ⟨_, runWord_eq_commit w s, rfl, rfl, List.prefix_append _ _⟩
  | resetPin => exact ⟨_, rfl, rfl, rfl, List.prefix_rfl⟩
  | resetDuring w k => exact ⟨_, accept_resetDuring w k s, rfl, rfl, List.prefix_append _ _⟩

/-- Settles O8: a step holds the state, or reads one input, which is accepted. -/
theorem everyStepHasANextState : Obligations.EveryStepHasANextState := by
  intro s
  cases hport : s.port with
  | nil => exact ⟨s, step_of_port_nil hport, hport, rfl, List.prefix_rfl⟩
  | cons p rest =>
    obtain ⟨t, ht, hrest, hindex, hevents⟩ := accept_next p (taken p rest s)
    exact ⟨t, (step_of_port_cons hport).trans ht, hrest, hindex, hevents⟩

end Sys2Proof.Machine
end

section
/-! Faults: what a recorded one ignores, and which steps raise or clear one (spec/60_exceptions.md
R214 to R216). -/

namespace Sys2Proof.Machine

/-- Settles O20: a word is that of a command, which a fault ignores unless it is RST, or it is
illegal, and then the fault recorded stays. -/
theorem faultedBlockIgnoresAllButReset : Obligations.FaultedBlockIgnoresAllButReset := by
  intro s rest hf
  refine ⟨fun w hport => ?word, fun hport => step_of_port_cons hport⟩
  have hrst : 0x300000000#34 = encode .rst := by decide
  rw [hrst]
  obtain ⟨i, rfl⟩ | ⟨hop, hp, r, hr⟩ := decode_cases w
  · rw [stepRunsTheDecodedCommand s _ rest i hport (decode_encode i)]
    by_cases hi : i = .rst
    · rw [hi, exec_rst, if_pos rfl]
    · have hne : encode i ≠ encode .rst := fun h =>
        hi (by simpa [decode_encode] using congrArg decode h)
      rw [if_neg hne]
      exact exec_of_faulted hf hi
  · have hne : w ≠ encode .rst := fun h => by simp [h, decode_encode] at hr
    rw [illegalWordRaisesIllegalCmd s w rest hport ((op_forbids_payload_iff _).2 hop) hp,
      if_neg hf, if_neg hne]

/-- What a result that changes `fault` is: a fault raised, with nothing else changed and nothing
emitted (R214), or the reset block in place of a faulted one (R216). -/
def RaisesOrResets {n v : Nat} (b : BlockOf n v) (r : BlockOf n v × List Event) : Prop :=
  (b.fault = 0#2 ∧ ∃ c, r = (raise c b, [])) ∨ (b.fault ≠ 0#2 ∧ r = (BlockOf.reset, []))

theorem blockCommand_raises_or_resets {v : Nat} {P : Config.Params Config.sampleW v} {i : Instr}
    {b : BlockOf Config.sampleW v} (h : (blockCommand P i b).1.fault ≠ b.fault) :
    RaisesOrResets b (blockCommand P i b) := by
  cases i with
  | nop => exact absurd rfl h
  | push x =>
    obtain ⟨-, hp⟩ | ⟨hf, c, -, hp⟩ | ⟨-, t, ht, hp⟩ := pushCommand_cases P x b
    · exact absurd (congrArg (·.1.fault) hp) h
    · exact .inl ⟨hf, c, hp⟩
    · obtain ⟨-, o, r, -, rfl⟩ := pushBlock_ok_cases ht
      exact absurd (congrArg (·.1.fault) hp) h
  | endc => exact absurd (endcCommand_frame b).2.2 h
  | rst => exact .inr ⟨Ne.symm h, rfl⟩

theorem blockWord_raises_or_resets {v : Nat} {P : Config.Params Config.sampleW v} {w : CmdWord}
    {b : BlockOf Config.sampleW v} (h : (blockWord P w b).1.fault ≠ b.fault) :
    RaisesOrResets b (blockWord P w b) := by
  obtain ⟨i, -, hw⟩ | ⟨r, -, hw⟩ := blockWord_cases P w b <;> rw [hw] at h ⊢
  · exact blockCommand_raises_or_resets h
  · obtain ⟨-, hi⟩ | ⟨hf, hi⟩ := illegalWord_cases b
    · exact absurd (congrArg (·.1.fault) hi) h
    · exact .inl ⟨hf, .illegalCmd, hi⟩

/-- Settles O22: of what a step can do to the block, a word that changes `fault` raises it or
resets, and a reset of either kind changes `fault` only where one was recorded. -/
theorem faultsArePrecise : Obligations.FaultsArePrecise := by
  intro s t hstep hne
  have hreset (hb : t.blk = Block.reset) : ¬ s.Unfaulted ∧ t.blk = Block.reset :=
    ⟨fun hf => hne (by rw [hb, hf]; rfl), hb⟩
  obtain ⟨hb, -⟩ | ⟨w, hb, he⟩ | ⟨hb, -⟩ | ⟨w, k, hb, -⟩ := step_blk_events_cases hstep
  · exact absurd (congrArg BlockOf.fault hb) hne
  · rw [hb] at hne
    obtain ⟨hf, c, hr⟩ | ⟨-, hr⟩ := blockWord_raises_or_resets hne
    · rw [hr] at hb he
      rw [hb]
      exact .inl ⟨hf, rfl, he.trans (List.append_nil _)⟩
    · rw [hr] at hb
      exact .inr (hreset hb)
  · exact .inr (hreset hb)
  · exact .inr (hreset hb)

end Sys2Proof.Machine
end

section
/-! The mirrored and the silent signal (spec/70_reset_and_hazards.md R252). -/

namespace Sys2Proof.Machine

variable {t u : Sample}

/-! ### A window with every sign flipped -/

/-- What sums over a window (`t`) and over the negated window (`u`) keep of "`u` is `t` negated":
nothing once `t` is a NaN, and all but the sign where `t` is a zero. -/
def Mirrored (t u : Sample) : Prop :=
  isNaN t = true ∨ (lowBits u = lowBits t ∧ (signBit u = !signBit t ∨ lowBits t = 0))

theorem mirrored_negate (x : Sample) : Mirrored x (negate x) :=
  .inr ⟨lowBits_negate x, .inl (signBit_negate x)⟩

theorem Mirrored.eq_negate (h : Mirrored t u) (hnan : isNaN t = false) (hzero : isZero t = false) :
    u = negate t := by
  obtain hn | ⟨hlow, hsign | hz⟩ := h
  · simp [hnan] at hn
  · exact eq_of_signBit_eq_of_lowBits_eq (hsign.trans (signBit_negate t).symm)
      (hlow.trans (lowBits_negate t).symm)
  · simp [isZero_iff.2 hz] at hzero

theorem isZero_eq_false_of_isInf {x : Sample} (h : isInf x = true) : isZero x = false := by
  rw [← Bool.not_eq_true, isZero_iff, isInf_iff.1 h]
  decide

/-- Beside an infinity no sign is lost. -/
theorem Mirrored.eq_negate_of_isInf (h : Mirrored t u) (hinf : isInf t = true) : u = negate t :=
  h.eq_negate (isNaN_eq_false_of_isInf hinf) (isZero_eq_false_of_isInf hinf)

theorem Mirrored.lowBits_eq (h : Mirrored t u) (hnan : isNaN t = false) :
    lowBits u = lowBits t := by
  obtain hn | ⟨hlow, -⟩ := h
  · simp [hnan] at hn
  · exact hlow

theorem Mirrored.isFinite (h : Mirrored t u) (ht : IsFinite t) : IsFinite u := by
  rwa [IsFinite, h.lowBits_eq (isFinite_iff.1 ht).1]

/-- As numbers the two are opposite, zeros of either sign included. -/
theorem Mirrored.finiteValue_eq (h : Mirrored t u) (hnan : isNaN t = false) :
    finiteValue u = -finiteValue t := by
  have hlow := h.lowBits_eq hnan
  cases hz : isZero t with
  | true =>
    have hzero : lowBits t = 0 := isZero_iff.1 hz
    rw [finiteValue_eq_zero_iff.2 hzero, finiteValue_eq_zero_iff.2 (hlow.trans hzero), neg_zero]
  | false => rw [h.eq_negate hnan hz, finiteValue_negate]

/-- A sum of opposite numbers is the opposite sum, rounded to the same magnitude; only an exact
zero loses its sign. -/
theorem mirrored_fadd32_of_isFinite {a b c d : Sample} (ha : IsFinite a) (hb : IsFinite b)
    (hc : IsFinite c) (hd : IsFinite d) (hca : finiteValue c = -finiteValue a)
    (hdb : finiteValue d = -finiteValue b) : Mirrored (fadd32 a b) (fadd32 c d) := by
  have hneg : finiteValue c + finiteValue d = -(finiteValue a + finiteValue b) := by omega
  refine .inr ⟨?low, ?sign⟩
  case low => rw [lowBits_fadd32 ha hb, lowBits_fadd32 hc hd, hneg, Int.natAbs_neg]
  case sign =>
    by_cases hs : finiteValue a + finiteValue b = 0
    · right
      rw [lowBits_fadd32 ha hb, hs, Int.natAbs_zero, roundNearest_zero one_pos]
    · left
      rw [signBit_fadd32 ha hb, signBit_fadd32 hc hd, hneg, if_neg hs, if_neg (neg_ne_zero.2 hs),
        ← decide_not, decide_eq_decide]
      omega

theorem Mirrored.add (h : Mirrored t u) (x : Sample) :
    Mirrored (fadd32 t x) (fadd32 u (negate x)) := by
  by_cases hnan : isNaN t = true ∨ isNaN x = true
  · exact .inl (isNaN_fadd32_of_isNaN hnan)
  · obtain ⟨ht, hx⟩ : isNaN t = false ∧ isNaN x = false := by simpa using hnan
    obtain hft | hit := isFinite_or_isInf ht
    · have hfu := h.isFinite hft
      obtain hfx | hix := isFinite_or_isInf hx
      · exact mirrored_fadd32_of_isFinite hft hfx hfu ((mirrored_negate x).isFinite hfx)
          (h.finiteValue_eq ht) (finiteValue_negate x)
      · rw [fadd32_of_isInf_right hft hix,
          fadd32_of_isInf_right hfu ((isInf_negate x).trans hix)]
        exact mirrored_negate x
    · obtain ⟨heq, -, hsame⟩ | ⟨hsum, -⟩ := fadd32_of_isInf_left (b := x) hit
      · have hmirror : fadd32 (negate t) (negate x) = negate t :=
          fadd32_of_isInf_left_of_same_sign ((isInf_negate t).trans hit)
            ((isNaN_negate x).trans hx) fun hix => by
              rw [signBit_negate, signBit_negate, hsame ((isInf_negate x).symm.trans hix)]
        rw [h.eq_negate_of_isInf hit, heq, hmirror]
        exact mirrored_negate t
      · exact .inl hsum

theorem Mirrored.fdiv32_five (h : Mirrored t u) : Mirrored (fdiv32 t five) (fdiv32 u five) := by
  cases ht : isNaN t with
  | true => exact .inl (isNaN_fdiv32_of_isNaN ht)
  | false =>
    obtain hfin | hinf := isFinite_or_isInf ht
    · have hlow := h.lowBits_eq ht
      refine .inr ⟨?low, ?sign⟩
      case low => rw [lowBits_fdiv32_five hfin, lowBits_fdiv32_five (h.isFinite hfin), hlow]
      case sign =>
        rw [signBit_fdiv32_five hfin, signBit_fdiv32_five (h.isFinite hfin)]
        obtain hn | ⟨-, hsign⟩ := h
        · simp [ht] at hn
        · exact hsign.imp_right lowBits_fdiv32_five_of_zero
    · rw [h.eq_negate_of_isInf hinf, fdiv32_five_of_isInf hinf,
        fdiv32_five_of_isInf ((isInf_negate t).trans hinf)]
      exact mirrored_negate t

/-- Settles O33: the two ordered sums stay mirrored from the oldest sample to the division, and a
mean that is no NaN and no zero is then negated exactly. -/
theorem negatedWindowHasTheNegatedMean : Obligations.NegatedWindowHasTheNegatedMean := by
  intro h0 h1 h2 h3 x
  exact (((((mirrored_negate h0).add h1).add h2).add h3).add x).fdiv32_five.eq_negate

/-! ### Silence -/

theorem polar_of_isZero {y : Sample} (h : isZero y = true) : polar y = .neg := by
  rw [polar_eq_neg_iff]
  simp [fgt0, h]

/-- Settles O36: the mean of zeros is a zero, whose polarity is the -1 already held, so the PUSH
continues the run. -/
theorem silenceEmitsNoWidth : Obligations.SilenceEmitsNoWidth := by
  intro s x hf hn hzeros hlast hcount
  obtain ⟨-, -, -, hmean, -⟩ :=
    meanOfSpecialValues s.blk.sm.h0 s.blk.sm.h1 s.blk.sm.h2 s.blk.sm.h3 x
  have hheld : (polar (mean5 s.blk.sm.h0 s.blk.sm.h1 s.blk.sm.h2 s.blk.sm.h3 x)).held =
      s.blk.rl.last := by
    rw [polar_of_isZero (hmean hzeros), hlast]
    rfl
  obtain ⟨c, hc, hexec⟩ := pushContinuesTheRun s x hf hn hheld hcount
  exact ⟨_, hexec, hf, rfl, hlast, hc⟩

end Sys2Proof.Machine
end
